-- ==== Sys2Proof/Word.lean ====
section
/-! DEFINITION. The widths the unit's cells, fields and numbers have (spec/00_scope.md R6, R8; spec/30_encoding.md R80, R81).

Every one is an abbreviation of a core bit vector, so that the core lemmas apply to it. The arithmetic the spec uses on
them (`x >> n`, `x << n`, `&`, `|`, `~`, `*`, `+` on 64-bit values, R9) is the core arithmetic of `BitVec 64`: logical
shifts, truncating products and sums. -/

namespace Sys2Proof

/-- One cell of a context's word memory or of WBUF: 64 bits (R6 `WORD_W`, R28, R30). -/
abbrev Word := BitVec 64

/-- One value: a cell of VBUF, a beat of the callback stream, a size, an index (R6 `VAL_W`, `SIZE_W`, R29, R32). -/
abbrev Value := BitVec 32

/-- A context number as a command writes it: 4 bits (R81). -/
abbrev CtxNum := BitVec 4

/-- One command word: 96 bits (R80). -/
abbrev CommandWord := BitVec 96

end Sys2Proof
end

