-- ==== Sys2Proof/Syntax.lean ====
section
/-! DEFINITION. The eleven operations (spec/30_encoding.md R84, R88; spec/opcode_table.json), one constructor a row, with
the fields each uses (R85) at their widths (R81). Operand order is that of R88. -/

namespace Sys2Proof

/-- A command that matches a row of the operation table. -/
inductive Instr where
  /-- `NEW cD, bits, size` (R112). -/
  | new        (ctx : CtxNum) (bitsarg : BitVec 8) (size : Value)
  /-- `FROMVALUES cD, bits, size` (R113). -/
  | fromValues (ctx : CtxNum) (bitsarg : BitVec 8) (size : Value)
  /-- `FROMWORDS cD, bits, size, wlen` (R114). -/
  | fromWords  (ctx : CtxNum) (bitsarg : BitVec 8) (size : Value) (wlen : Value)
  /-- `WIDX cD, index` (R139). -/
  | widx       (ctx : CtxNum) (index : Value)
  /-- `GET cD, index` (R153). -/
  | get        (ctx : CtxNum) (index : Value)
  /-- `SET cD, index, value` (R154). -/
  | set        (ctx : CtxNum) (index : Value) (value : Value)
  /-- `GETANDSET cD, index, value` (R155). -/
  | getAndSet  (ctx : CtxNum) (index : Value) (value : Value)
  /-- `GETALL cD` (R171). -/
  | getAll     (ctx : CtxNum)
  /-- `UNPACK cD` (R172). -/
  | unpack     (ctx : CtxNum)
  /-- `RAWWORDS cD` (R173). -/
  | rawWords   (ctx : CtxNum)
  /-- `CLONE cD, cS` (R174): `ctx` is the destination, `src` (the field `ctx2`) the source. -/
  | clone      (ctx : CtxNum) (src : CtxNum)
  deriving DecidableEq, Repr

namespace Instr

/-- The row's mnemonic, as spec/opcode_table.json spells it. -/
def mnemonic : Instr → String
  | .new _ _ _         => "NEW"
  | .fromValues _ _ _  => "FROMVALUES"
  | .fromWords _ _ _ _ => "FROMWORDS"
  | .widx _ _          => "WIDX"
  | .get _ _           => "GET"
  | .set _ _ _         => "SET"
  | .getAndSet _ _ _   => "GETANDSET"
  | .getAll _          => "GETALL"
  | .unpack _          => "UNPACK"
  | .rawWords _        => "RAWWORDS"
  | .clone _ _         => "CLONE"

/-- The context the operation works on: the field `ctx` (R81); for CLONE the destination. -/
def target : Instr → CtxNum
  | .new c _ _         => c
  | .fromValues c _ _  => c
  | .fromWords c _ _ _ => c
  | .widx c _          => c
  | .get c _           => c
  | .set c _ _         => c
  | .getAndSet c _ _   => c
  | .getAll c          => c
  | .unpack c          => c
  | .rawWords c        => c
  | .clone c _         => c

/-- The context whose VALID the operation checks (R157, R170): `ctx`, for CLONE `ctx2`; a constructor checks none. -/
def source : Instr → Option CtxNum
  | .new _ _ _         => none
  | .fromValues _ _ _  => none
  | .fromWords _ _ _ _ => none
  | .widx c _          => some c
  | .get c _           => some c
  | .set c _ _         => some c
  | .getAndSet c _ _   => some c
  | .getAll c          => some c
  | .unpack c          => some c
  | .rawWords c        => some c
  | .clone _ c         => some c

end Instr

end Sys2Proof
end

