-- ==== Sys2Proof/Decode.lean ====
section
/-! DEFINITION. The decoder and the encoder of the 96-bit command word, and the operation table as the spec prints it
(spec/30_encoding.md R80 to R87). There is one format and one length; the decoder is total on the 2^96 words and rejects
by name. Context numbers of NCTX or more decode (R81): the meanings refuse them (R86 (b), (c)). -/

namespace Sys2Proof

/-! ## The fields of format C (R81) -/

/-- `op = CW[7:0]`. -/
def opField (cw : CommandWord) : BitVec 8 := cw.extractLsb' 0 8
/-- `ctx = CW[11:8]`. -/
def ctxField (cw : CommandWord) : CtxNum := cw.extractLsb' 8 4
/-- `ctx2 = CW[15:12]`. -/
def ctx2Field (cw : CommandWord) : CtxNum := cw.extractLsb' 12 4
/-- `bitsarg = CW[23:16]`. -/
def bitsargField (cw : CommandWord) : BitVec 8 := cw.extractLsb' 16 8
/-- `rsv = CW[31:24]`. -/
def rsvField (cw : CommandWord) : BitVec 8 := cw.extractLsb' 24 8
/-- `a = CW[63:32]`. -/
def aField (cw : CommandWord) : Value := cw.extractLsb' 32 32
/-- `b = CW[95:64]`. -/
def bField (cw : CommandWord) : Value := cw.extractLsb' 64 32

/-! ## The operation codes (R84) -/

/-- The eleven operations by name. -/
inductive Op where
  | new | fromValues | fromWords | widx | get | set | getAndSet | getAll | unpack | rawWords | clone
  deriving DecidableEq, Repr

/-- The operation code (R84). -/
def Op.code : Op → BitVec 8
  | .new        => 0x01
  | .fromValues => 0x02
  | .fromWords  => 0x03
  | .widx       => 0x10
  | .get        => 0x20
  | .set        => 0x21
  | .getAndSet  => 0x22
  | .getAll     => 0x30
  | .unpack     => 0x31
  | .rawWords   => 0x32
  | .clone      => 0x33

/-- The operations in the order of R84. -/
def Op.all : List Op :=
  [.new, .fromValues, .fromWords, .widx, .get, .set, .getAndSet, .getAll, .unpack, .rawWords, .clone]

/-- The operation of a code; none for the codes R84 lists as illegal. -/
def opOf (code : BitVec 8) : Option Op := Op.all.find? fun op => op.code == code

/-! ## Decoding (R85, R86 (a)) -/

/-- Why a command word is no row of the table (R86 (a)). -/
inductive DecodeError where
  /-- `op` is not one of the eleven codes of R84. -/
  | unknownOp (op : BitVec 8)
  /-- `op` is a code of R84 and a must-be-zero field of its row (R85) is not 0. -/
  | nonZeroField (op : BitVec 8)
  deriving DecidableEq, Repr

/-- The must-be-zero fields of an operation's row are zero (R85; `rsv` is one of every row). -/
def mustBeZero (op : Op) (cw : CommandWord) : Bool :=
  let ctx2 := ctx2Field cw == 0
  let bits := bitsargField cw == 0
  let rsv  := rsvField cw == 0
  let a    := aField cw == 0
  let b    := bField cw == 0
  match op with
  | .new        => ctx2 && rsv && b
  | .fromValues => ctx2 && rsv && b
  | .fromWords  => ctx2 && rsv
  | .widx       => ctx2 && bits && rsv && b
  | .get        => ctx2 && bits && rsv && b
  | .set        => ctx2 && bits && rsv
  | .getAndSet  => ctx2 && bits && rsv
  | .getAll     => ctx2 && bits && rsv && a && b
  | .unpack     => ctx2 && bits && rsv && a && b
  | .rawWords   => ctx2 && bits && rsv && a && b
  | .clone      => bits && rsv && a && b

/-- The operation with its used fields as operands (R82, R85, R88). -/
def assemble (op : Op) (cw : CommandWord) : Instr :=
  match op with
  | .new        => .new (ctxField cw) (bitsargField cw) (aField cw)
  | .fromValues => .fromValues (ctxField cw) (bitsargField cw) (aField cw)
  | .fromWords  => .fromWords (ctxField cw) (bitsargField cw) (aField cw) (bField cw)
  | .widx       => .widx (ctxField cw) (aField cw)
  | .get        => .get (ctxField cw) (aField cw)
  | .set        => .set (ctxField cw) (aField cw) (bField cw)
  | .getAndSet  => .getAndSet (ctxField cw) (aField cw) (bField cw)
  | .getAll     => .getAll (ctxField cw)
  | .unpack     => .unpack (ctxField cw)
  | .rawWords   => .rawWords (ctxField cw)
  | .clone      => .clone (ctxField cw) (ctx2Field cw)

/-- The operation of a command word (R85), or why it has none (R86 (a)). -/
def decode (cw : CommandWord) : Except DecodeError Instr :=
  match opOf (opField cw) with
  | none    => .error (.unknownOp (opField cw))
  | some op => if mustBeZero op cw then .ok (assemble op cw) else .error (.nonZeroField (opField cw))

/-! ## Encoding (R81, R84, R88) -/

/-- A command word from its fields, `rsv` being 0: `CW = {b, a, rsv, bitsarg, ctx2, ctx, op}` (R81). -/
def packCommand (op : BitVec 8) (ctx ctx2 : CtxNum) (bitsarg : BitVec 8) (a b : Value) : CommandWord :=
  b ++ a ++ 0#8 ++ bitsarg ++ ctx2 ++ ctx ++ op

/-- The command word of an operation: its code and used fields, every other field 0 (R84, R85). -/
def encode : Instr → CommandWord
  | .new c bits size            => packCommand (Op.code .new) c 0 bits size 0
  | .fromValues c bits size     => packCommand (Op.code .fromValues) c 0 bits size 0
  | .fromWords c bits size wlen => packCommand (Op.code .fromWords) c 0 bits size wlen
  | .widx c index               => packCommand (Op.code .widx) c 0 0 index 0
  | .get c index                => packCommand (Op.code .get) c 0 0 index 0
  | .set c index value          => packCommand (Op.code .set) c 0 0 index value
  | .getAndSet c index value    => packCommand (Op.code .getAndSet) c 0 0 index value
  | .getAll c                   => packCommand (Op.code .getAll) c 0 0 0 0
  | .unpack c                   => packCommand (Op.code .unpack) c 0 0 0 0
  | .rawWords c                 => packCommand (Op.code .rawWords) c 0 0 0 0
  | .clone d s                  => packCommand (Op.code .clone) d s 0 0 0

/-! ## The table of R85, as the spec prints it -/

/-- One row of R85. A word is the row's operation exactly when its `mask` bits equal `pattern`. -/
structure OpRow where
  mnemonic : String
  pattern  : CommandWord
  mask     : CommandWord
  deriving DecidableEq, Repr

/-- The eleven rows of R85. -/
def opTable : List OpRow :=
  [ ⟨"NEW",        0x000000000000000000000001#96, 0xFFFFFFFF00000000FF00F0FF#96⟩,
    ⟨"FROMVALUES", 0x000000000000000000000002#96, 0xFFFFFFFF00000000FF00F0FF#96⟩,
    ⟨"FROMWORDS",  0x000000000000000000000003#96, 0x0000000000000000FF00F0FF#96⟩,
    ⟨"WIDX",       0x000000000000000000000010#96, 0xFFFFFFFF00000000FFFFF0FF#96⟩,
    ⟨"GET",        0x000000000000000000000020#96, 0xFFFFFFFF00000000FFFFF0FF#96⟩,
    ⟨"SET",        0x000000000000000000000021#96, 0x0000000000000000FFFFF0FF#96⟩,
    ⟨"GETANDSET",  0x000000000000000000000022#96, 0x0000000000000000FFFFF0FF#96⟩,
    ⟨"GETALL",     0x000000000000000000000030#96, 0xFFFFFFFFFFFFFFFFFFFFF0FF#96⟩,
    ⟨"UNPACK",     0x000000000000000000000031#96, 0xFFFFFFFFFFFFFFFFFFFFF0FF#96⟩,
    ⟨"RAWWORDS",   0x000000000000000000000032#96, 0xFFFFFFFFFFFFFFFFFFFFF0FF#96⟩,
    ⟨"CLONE",      0x000000000000000000000033#96, 0xFFFFFFFFFFFFFFFFFFFF00FF#96⟩ ]

/-- The word is the operation of the row (R85). -/
def OpRow.covers (r : OpRow) (cw : CommandWord) : Bool := (cw &&& r.mask) == r.pattern

/-! ## The host's reading of a table word -/

/-- The command word whose low `nbits` bits are `w` and whose other bits are 0. -/
def tableWord (nbits w : Nat) : CommandWord := BitVec.ofNat 96 (w % 2 ^ nbits)

/-- The operation the decoder reads from a word numbered as spec/opcode_table.json numbers it. -/
def decodeTableWord (nbits w : Nat) : Option Instr :=
  match decode (tableWord nbits w) with
  | .ok i    => some i
  | .error _ => none

end Sys2Proof
end

