-- ==== Sys2Proof/Config.lean ====
section
/-! DEFINITION. The parameters the spec leaves open (spec/00_scope.md R7; spec/92_eei_decisions.md D2, D10) and the
values it leaves unspecified (spec/10_state.md R38; spec/93_implementation_defined.md U5, U9).

The parameters are a record that the state carries and no step changes (log entry 2): every claim about a state is then
a claim about every choice of them. The unspecified values are constants without a body: nothing can be proved of what
they are (log entry 3). -/

namespace Sys2Proof

/-- The four parameters of R7, under their names there: NCTX, WORDS_CAP, VBUF_LEN, WBUF_LEN. -/
structure Config where
  nctx     : Nat
  wordsCap : Nat
  vbufLen  : Nat
  wbufLen  : Nat
  deriving DecidableEq, Repr

namespace Config

/-- The ranges of R7. The upper bound of WORDS_CAP is the one that makes the multiply-shift exact (R137). -/
abbrev wf (c : Config) : Prop :=
  (1 ≤ c.nctx ∧ c.nctx ≤ 16) ∧ (1 ≤ c.wordsCap ∧ c.wordsCap ≤ 51130564) ∧
    c.vbufLen ≤ 2 ^ 32 - 1 ∧ c.wbufLen ≤ 2 ^ 31

/-- The values R7 names for the examples of spec/95_test_vectors.md; `State.reset` uses them (log entry 2). -/
def specExample : Config := { nctx := 2, wordsCap := 65536, vbufLen := 4096, wbufLen := 4096 }

/-- What a VBUF cell holds that nothing has written since reset: unspecified (R38, U9). The first argument counts the
resets, so that two resets need not leave the same contents; the second is the cell's address (log entry 3). -/
opaque unwrittenValue : Nat → Nat → Value

/-- What a WBUF cell holds that nothing has written since reset: unspecified (R38, U9), as `unwrittenValue`. -/
opaque unwrittenStaged : Nat → Nat → Word

/-- What a word of a context holds that nothing has written since reset: unspecified (R38, U5). The arguments are the
count of resets, the context number and the word address. No operation reads such a word in a state a run reaches
(log entry 3). -/
opaque unwrittenWord : Nat → Nat → Nat → Word

end Config

end Sys2Proof
end

