-- ==== Sys2Proof/Machine/State.lean ====
section
/-! DEFINITION. The state of the unit as plain data, and its value after reset (spec/10_state.md R20 to R38;
spec/70_reset_and_hazards.md R230, R231).

Every field the spec gives the unit stands under its name there. Four fields are the model's own, named as such:
`cfg`, `inputs`, `responses`, `resets` (log entries 2, 3, 4, 5). -/

namespace Sys2Proof.Machine

/-- One memory space (R50): the cells something has written since reset, as pairs of cell address and content, in one
canonical form (`Memory.wf`). A cell that is not listed holds no value the model may assume (R38). The unit of every
space is the whole cell; there are no bytes (R59, R62; log entry 6). -/
abbrev Memory (width : Nat) := List (Nat × BitVec width)

/-- The canonical form: addresses strictly rising. An unlisted cell has no value, so no entry can equal it, and equal
memories are equal lists. -/
abbrev Memory.wf {width : Nat} (m : Memory width) : Prop := (m.map Prod.fst).Pairwise (· < ·)

/-- The eight shape registers of a context (R21 to R26), which a constructor writes all together (R27, R110). -/
structure Shape where
  size     : BitVec 32
  bits     : BitVec 6
  mask     : BitVec 64
  vpw      : BitVec 7
  nwords   : BitVec 32
  divmul   : BitVec 32
  divadd   : BitVec 32
  divshift : BitVec 3
  deriving DecidableEq, Repr

/-- One context (R20): VALID, the shape registers, and the word memory WORDS (R28), of which the cells 0 to NWORDS - 1
are represented. -/
structure Context where
  valid : Bool
  shape : Shape
  words : Memory 64
  deriving DecidableEq, Repr

/-- The six fault causes (R190 to R196). A fault of the unit is no stop of the model: the command ends with an error
status and the unit goes on (R201, R204). -/
inductive Cause where
  /-- A width outside 1 to 32 at construction (R191). -/
  | invalidArgument
  /-- A supplied word buffer of the wrong length (R192). -/
  | initializationError
  /-- An index that is not below SIZE (R193). -/
  | indexOutOfBounds
  /-- A word that is no operation with legal context numbers (R194). -/
  | illegalCommand
  /-- A context that is not valid (R195). -/
  | noInstance
  /-- More than the unit can hold (R196). -/
  | capacityExceeded
  deriving DecidableEq, Repr

/-- The response of a command: 4 bits of status, 64 bits of data (R83). -/
structure Response where
  status : BitVec 4
  data   : BitVec 64
  deriving DecidableEq, Repr

/-- What the host can do to the unit between two commands, and the commands (R31, R34, R230). Reading a register, a
staging cell or a response changes nothing (R61) and is no action: the state shows it. -/
inductive HostAction where
  /-- Issue a command word. -/
  | command (cw : CommandWord)
  /-- Write a cell of VBUF (R31; `.vbuf` of R88 is a run of these). -/
  | writeValue (address : Nat) (value : Value)
  /-- Write a cell of WBUF (R31; `.wbuf` of R88 is a run of these). -/
  | writeWord (address : Nat) (word : Word)
  /-- The reset input (R230). -/
  | reset
  deriving DecidableEq, Repr

/-- The unit and what the host has lined up for it. -/
structure State where
  /-- The parameters NCTX, WORDS_CAP, VBUF_LEN, WBUF_LEN (R7). The model's own place for them; no step changes it. -/
  cfg       : Config
  /-- The contexts by number (R20). The unit has those below NCTX; the others are never valid and never touched
  (log entry 8). -/
  ctxs      : Vector Context 16
  /-- VBUF (R29). -/
  vbuf      : Memory 32
  /-- WBUF (R30). -/
  wbuf      : Memory 64
  /-- CB, oldest beat first (R32). -/
  cb        : List (BitVec 32)
  /-- FAULT, sticky (R33). -/
  fault     : Bool
  /-- ECODE (R33). -/
  ecode     : BitVec 4
  /-- EINFO0 (R33). -/
  einfo0    : BitVec 32
  /-- EINFO1 (R33). -/
  einfo1    : BitVec 32
  /-- What the host does next, in order (R34). The model's own: a step takes the first. -/
  inputs    : List HostAction
  /-- Every response the unit has given, oldest first (R83). The model's own: an output, not state (R36). -/
  responses : List Response
  /-- How many resets came before; it selects the unspecified contents (`Config.unwrittenValue`). The model's own. -/
  resets    : Nat
  deriving DecidableEq, Repr

/-- Why the machine stops. No command stops it (R204, R234): only a host action that the spec does not have does. -/
inductive Fault where
  /-- Raised by the host action `writeValue` at an address of VBUF_LEN or more, where VBUF has no cell (R29, R62).
  Safe: the model stops where the spec gives no effect. -/
  | noValueCell (address : Nat)
  /-- Raised by the host action `writeWord` at an address of WBUF_LEN or more, where WBUF has no cell (R30, R62).
  Safe: the model stops where the spec gives no effect. -/
  | noWordCell (address : Nat)
  deriving DecidableEq, Repr

/-- Why an instruction has no meaning. -/
inductive Refusal where
  /-- Raised by the dispatch arm of an instruction without a meaning: no arm does. Safe. -/
  | notModelled (mnemonic : String)
  deriving DecidableEq, Repr

/-- The shape registers after reset: the spec gives no value; zero (log entry 1). -/
def Shape.reset : Shape :=
  { size := 0, bits := 0, mask := 0, vpw := 0, nwords := 0, divmul := 0, divadd := 0, divshift := 0 }

/-- A context after reset: VALID is 0, everything else unspecified (R38). -/
def Context.reset : Context := { valid := false, shape := Shape.reset, words := [] }

/-- The unit after reset (R38, R230), with the parameters `cfg`, after `resets` earlier resets. -/
def State.resetWith (cfg : Config) (resets : Nat) : State :=
  { cfg, ctxs := Vector.replicate 16 Context.reset, vbuf := [], wbuf := [], cb := [],
    fault := false, ecode := 0, einfo0 := 0, einfo1 := 0, inputs := [], responses := [], resets }

/-- The unit right after its first reset, with the example parameters of R7; it waits for its first command (R231). -/
def State.reset : State := State.resetWith Config.specExample 0

end Sys2Proof.Machine
end

