-- ==== Sys2Proof/Machine/Flags.lean ====
section
/-! DEFINITION. The status codes and the four fault registers (spec/60_exceptions.md R190, R201; spec/10_state.md R33).

FAULT is the unit's only flag: there are no condition codes, no carry, overflow or zero flag and no predicate, and no
arithmetic of any operation sets one (R35). -/

namespace Sys2Proof.Machine

/-- The status of a command that succeeds (R83, R190). -/
def okStatus : BitVec 4 := 0

/-- The code of a fault, which is the response's status and what ECODE records (R190). -/
def Cause.code : Cause → BitVec 4
  | .invalidArgument     => 1
  | .initializationError => 2
  | .indexOutOfBounds    => 3
  | .illegalCommand      => 4
  | .noInstance          => 5
  | .capacityExceeded    => 6

/-- The registers a fault writes: `FAULT <- 1; ECODE <- code; EINFO0 <- trunc_32(i0); EINFO1 <- trunc_32(i1)` (R201). -/
def State.recordFault (cause : Cause) (i0 i1 : Nat) (s : State) : State :=
  { s with fault := true, ecode := cause.code, einfo0 := BitVec.ofNat 32 i0, einfo1 := BitVec.ofNat 32 i1 }

end Sys2Proof.Machine
end

