-- ==== Sys2Proof/WellFormed.lean ====
section
/-! DEFINITION. When an operation names only contexts the unit has (spec/30_encoding.md R82, R86 (b), (c)).

The widths of the fields hold by type, and the must-be-zero fields of R85 do not stand in an `Instr`; what is left to
check is the context numbers, which depend on the parameter NCTX. A command that fails the check is illegal and faults
(R86): the meanings raise IllegalCommand on it. -/

namespace Sys2Proof

/-- A context number is legal when below NCTX (R82). -/
def legalCtx (cfg : Config) (c : CtxNum) : Bool := decide (c.toNat < cfg.nctx)

/-- The context numbers of the command are below NCTX (R86 (b), and (c) for CLONE). -/
def Instr.wf (cfg : Config) : Instr → Bool
  | .new c _ _         => legalCtx cfg c
  | .fromValues c _ _  => legalCtx cfg c
  | .fromWords c _ _ _ => legalCtx cfg c
  | .widx c _          => legalCtx cfg c
  | .get c _           => legalCtx cfg c
  | .set c _ _         => legalCtx cfg c
  | .getAndSet c _ _   => legalCtx cfg c
  | .getAll c          => legalCtx cfg c
  | .unpack c          => legalCtx cfg c
  | .rawWords c        => legalCtx cfg c
  | .clone d s         => legalCtx cfg d && legalCtx cfg s

end Sys2Proof
end

