-- ==== Sys2Proof/Machine/Ops.lean ====
section
/-! DEFINITION. The operations over memory, contexts, the callback stream and the response (spec/00_scope.md R10), and
fault entry (spec/60_exceptions.md R201). Every meaning is written over these. -/

namespace Sys2Proof.Machine

/-! ## Memory cells (R10 `MemRead`, `MemWrite`) -/

/-- The content of a cell, or `none` if nothing has written it since reset. -/
def Memory.read? {width : Nat} : Memory width → Nat → Option (BitVec width)
  | [], _ => none
  | (b, v) :: rest, a => if a = b then some v else Memory.read? rest a

/-- The cells `a`, `a + 1`, ... holding the values of a list, in order. -/
def Memory.run {width : Nat} : Nat → List (BitVec width) → Memory width
  | _, [] => []
  | a, v :: vs => (a, v) :: Memory.run (a + 1) vs

/-- Write a run of whole cells from address `a` up; every other cell stays, and the addresses stay rising. -/
def Memory.writeRun {width : Nat} (m : Memory width) (a : Nat) (vs : List (BitVec width)) : Memory width :=
  m.filter (fun p => decide (p.1 < a)) ++ Memory.run a vs ++
    m.filter (fun p => decide (a + vs.length ≤ p.1))

/-- Write one whole cell. -/
def Memory.write {width : Nat} (m : Memory width) (a : Nat) (v : BitVec width) : Memory width :=
  Memory.writeRun m a [v]

/-! ## Contexts (R10 `CTX[c].F`, R20) -/

/-- `CTX[c]`. -/
def State.ctx (s : State) (c : CtxNum) : Context := s.ctxs[c.toNat]'(c.isLt)

/-- Replace `CTX[c]`; no other context changes (R20). -/
def State.setCtx (s : State) (c : CtxNum) (x : Context) : State :=
  { s with ctxs := s.ctxs.set c.toNat x c.isLt }

/-- `MemRead(CTX[c].WORDS[w], 64)`; a word nothing has written has an unspecified value (R38). -/
def State.readWord (s : State) (c : CtxNum) (w : Nat) : Word :=
  (Memory.read? (s.ctx c).words w).getD (Config.unwrittenWord s.resets c.toNat w)

/-- `MemWrite(CTX[c].WORDS[w], 64, v)`. -/
def State.writeWord (s : State) (c : CtxNum) (w : Nat) (v : Word) : State :=
  s.setCtx c { s.ctx c with words := Memory.write (s.ctx c).words w v }

/-- Words 0 to n - 1 of a context, in order (R28). -/
def State.readWords (s : State) (c : CtxNum) (n : Nat) : List Word :=
  (List.range n).map (s.readWord c)

/-- Make `CTX[c]` a complete new instance: every shape register, every word 0 to NWORDS - 1, VALID <- 1. Nothing of an
earlier instance survives (R116); words at NWORDS and above are not represented (R28). -/
def State.build (s : State) (c : CtxNum) (sh : Shape) (words : List Word) : State :=
  s.setCtx c { valid := true, shape := sh, words := Memory.run 0 words }

/-! ## Staging buffers (R29, R30) and the callback stream (R32) -/

/-- `MemRead(VBUF[a], 32)`; a cell nothing has written has an unspecified value (R38, U9). -/
def State.readValue (s : State) (a : Nat) : Value :=
  (Memory.read? s.vbuf a).getD (Config.unwrittenValue s.resets a)

/-- `MemRead(WBUF[a], 64)`; a cell nothing has written has an unspecified value (R38, U9). -/
def State.readStaged (s : State) (a : Nat) : Word :=
  (Memory.read? s.wbuf a).getD (Config.unwrittenStaged s.resets a)

/-- Write VBUF cells from address `a` up. -/
def State.writeValues (s : State) (a : Nat) (vs : List Value) : State :=
  { s with vbuf := Memory.writeRun s.vbuf a vs }

/-- Write WBUF cells from address `a` up. -/
def State.writeStaged (s : State) (a : Nat) (ws : List Word) : State :=
  { s with wbuf := Memory.writeRun s.wbuf a ws }

/-- `emit` of each value in order: beats are appended, none is removed (R10, R32). -/
def State.emit (s : State) (beats : List Value) : State := { s with cb := s.cb ++ beats }

/-! ## Ending a command -/

/-- Give a response (R83). -/
def State.answer (s : State) (r : Response) : State := { s with responses := s.responses ++ [r] }

/-- `respond(d)`: status OK and the data `d` (R10). -/
def State.respond (s : State) (d : BitVec 64) : State := s.answer { status := okStatus, data := d }

/-- The arguments of `raise X(i0, i1)` (R10). -/
structure Raise where
  cause : Cause
  info0 : Nat
  info1 : Nat
  deriving DecidableEq, Repr

/-- FAULT ENTRY, `raise X(i0, i1)` (R201): the four fault registers, and the response (code, 0). Nothing else changes,
no mode, no address, no stack; control goes nowhere. There is no return from a fault and nothing to return from: the
next command is executed as any is (R204, R213). -/
def State.raise (s : State) (r : Raise) : State :=
  (s.recordFault r.cause r.info0 r.info1).answer { status := r.cause.code, data := 0 }

/-- The first cause that applies, in the order of the list, and no other (R202). -/
def firstRaise : List (Bool × Raise) → Option Raise
  | [] => none
  | (applies, r) :: rest => if applies then some r else firstRaise rest

/-- End a command whose checks come before its first write (R200): with the first fault that applies, in the state the
command found, or with its effect `done` (a function of nothing, so that an evaluator does not work it out in vain). -/
def finish (checks : List (Bool × Raise)) (s : State) (done : Unit → State) : Host.Outcome State Fault Refusal :=
  match firstRaise checks with
  | some r => .next (s.raise r)
  | none   => .next (done ())

/-- The position of the next command in the host's sequence, the unit's only "program counter" (R34): one response
stands for each command executed. -/
def State.position (s : State) : Nat := s.responses.length

/-! ## Checks that several operations share -/

/-- IllegalCommand of a word records CW[31:0] and CW[63:32] (R194). -/
def illegalRaise (cw : CommandWord) : Raise :=
  { cause := .illegalCommand, info0 := (cw.extractLsb' 0 32).toNat, info1 := (cw.extractLsb' 32 32).toNat }

/-- A command that names a context of NCTX or more is illegal (R86 (b), (c); log entry 10). -/
def illegalCheck (i : Instr) (s : State) : Bool × Raise := (!i.wf s.cfg, illegalRaise (encode i))

/-- The context must be valid, else `NoInstance(c, 0)` (R157, R170, R195). -/
def instanceCheck (c : CtxNum) (s : State) : Bool × Raise :=
  (!(s.ctx c).valid, { cause := .noInstance, info0 := c.toNat, info1 := 0 })

/-- The index must be below SIZE as an unsigned number, else `IndexOutOfBounds(a, SIZE)` (R58, R157, R193). -/
def indexCheck (c : CtxNum) (index : Value) (s : State) : Bool × Raise :=
  (decide ((s.ctx c).shape.size.toNat ≤ index.toNat),
    { cause := .indexOutOfBounds, info0 := index.toNat, info1 := (s.ctx c).shape.size.toNat })

/-- The amount needed must not exceed the capacity, else `CapacityExceeded(amount, capacity)` (R111, R196). -/
def capacityCheck (amount capacity : Nat) : Bool × Raise :=
  (decide (capacity < amount), { cause := .capacityExceeded, info0 := amount, info1 := capacity })

end Sys2Proof.Machine
end

