-- ==== Sys2Proof/Machine/Operands.lean ====
section
/-! DEFINITION. What the operands of the operations select: the shape of a context (spec/40_construct.md R110), the
constants and datapath of the word-indexer (spec/41_indexer.md R131 to R140), the extractor and depositor
(spec/42_access.md R150, R151), and the runs of slots the bulk operations read and write. -/

namespace Sys2Proof.Machine

/-! ## The constants of the word-indexer (R134, R135) -/

/-- One row of the constant table MAGIC. -/
structure Magic where
  mul   : BitVec 32
  add   : BitVec 32
  shift : BitVec 3
  deriving DecidableEq, Repr

/-- The row for the divisor `d`: the three cases of R135. -/
def magicFor (d : Nat) : Magic :=
  if d = 1 then { mul := 0xFFFFFFFF#32, add := 0xFFFFFFFF#32, shift := 0 }
  else if 2 ^ d.log2 = d then { mul := 0x80000000#32, add := 0, shift := BitVec.ofNat 3 (d.log2 - 1) }
  else { mul := BitVec.ofNat 32 (2 ^ 32 / d), add := BitVec.ofNat 32 (2 ^ 32 / d), shift := 0 }

/-- `MAGIC[key]`, keyed by VPW - 1 (R134; spec/90_conflicts.md C1). -/
def magic (key : Nat) : Magic := magicFor (key + 1)

/-! ## The shape of a context (R110) -/

/-- VPW = floor(64 / bits) (R24). -/
def valuesPerWord (bits : Nat) : Nat := 64 / bits

/-- NWORDS = ceil(size / VPW), on unbounded naturals (R9, R25). -/
def wordsNeeded (bits size : Nat) : Nat := (size + valuesPerWord bits - 1) / valuesPerWord bits

/-- MASK = 2^bits - 1, by a 64-bit shift (R23). -/
def maskOf (bits : Nat) : Word := (1#64 <<< bits) - 1#64

/-- `Shape(bits, size)` (R110), for a width of 1 to 32. -/
def shapeOf (bits size : Nat) : Shape :=
  let m := magic (valuesPerWord bits - 1)
  { size     := BitVec.ofNat 32 size
    bits     := BitVec.ofNat 6 bits
    mask     := maskOf bits
    vpw      := BitVec.ofNat 7 (valuesPerWord bits)
    nwords   := BitVec.ofNat 32 (wordsNeeded bits size)
    divmul   := m.mul
    divadd   := m.add
    divshift := m.shift }

/-- The requested width must be 1 to 32, else `InvalidArgument(bitsarg, 0)` (R110, R191). -/
def widthCheck (bitsarg : BitVec 8) : Bool × Raise :=
  (decide (bitsarg.toNat < 1 ∨ 32 < bitsarg.toNat),
    { cause := .invalidArgument, info0 := bitsarg.toNat, info1 := 0 })

/-- The supplied length must be the expected one, else `InitializationError(expected, actual)` (R114, R192). -/
def lengthCheck (expected actual : Nat) : Bool × Raise :=
  (decide (actual ≠ expected), { cause := .initializationError, info0 := expected, info1 := actual })

/-! ## The word-indexer (R131, R133, R140) -/

/-- `MulShift(i, mul, add, shift)`: a 64-bit product, a 64-bit sum, two logical right shifts (R133). -/
def mulShift (i mul add : BitVec 32) (shift : BitVec 3) : BitVec 64 :=
  let p := i.setWidth 64 * mul.setWidth 64
  let q := p + add.setWidth 64
  (q >>> 32) >>> shift.toNat

/-- `WordIndex(c, i)` as the unit computes it, from the context's three constants (R131; log entry 9). -/
def Shape.wordIndex (sh : Shape) (i : Value) : Nat := (mulShift i sh.divmul sh.divadd sh.divshift).toNat

/-- `BitOffset(c, i) = (i - WordIndex(c, i) * VPW) * BITS` (R140). -/
def Shape.bitOffset (sh : Shape) (i : Value) : Nat :=
  (i.toNat - sh.wordIndex i * sh.vpw.toNat) * sh.bits.toNat

/-! ## The extractor and the depositor (R150, R151) -/

/-- `Extract(word, off, mask) = (word >> off) & mask` (R150). -/
def extract (word : Word) (off : Nat) (mask : Word) : Word := (word >>> off) &&& mask

/-- `Deposit(word, off, mask, value) = (word & ~(mask << off)) | ((value & mask) << off)` (R151); `value` is the
operand zero-extended to 64 bits. -/
def deposit (word : Word) (off : Nat) (mask value : Word) : Word :=
  (word &&& ~~~(mask <<< off)) ||| ((value &&& mask) <<< off)

/-- The word that holds slot `i` of context `c`, and the value of that slot in it (R153). -/
def State.slotWord (s : State) (c : CtxNum) (i : Value) : Word := s.readWord c ((s.ctx c).shape.wordIndex i)

/-- The value of slot `i` of context `c`, as GET reads it (R153). -/
def State.slotValue (s : State) (c : CtxNum) (i : Value) : Word :=
  extract (s.slotWord c i) ((s.ctx c).shape.bitOffset i) (s.ctx c).shape.mask

/-- Replace slot `i` of context `c`: one word read, the same word written (R154). -/
def State.writeSlot (s : State) (c : CtxNum) (i value : Value) : State :=
  s.writeWord c ((s.ctx c).shape.wordIndex i)
    (deposit (s.slotWord c i) ((s.ctx c).shape.bitOffset i) (s.ctx c).shape.mask (value.setWidth 64))

/-! ## Runs of slots (R113, R171, R172) -/

/-- One packed word from the values of its group, lowest index first: from the highest index down, shift left by BITS
and or in the masked value, from 0 (R113; spec/92_eei_decisions.md D18). -/
def packGroup (sh : Shape) (values : List Value) : Word :=
  values.foldr (fun v word => (word <<< sh.bits.toNat) ||| (v.setWidth 64 &&& sh.mask)) 0

/-- The values of group `w`: VBUF cells w * VPW up to, and not including, min(size, (w + 1) * VPW) (R113). -/
def State.groupValues (s : State) (sh : Shape) (w : Nat) : List Value :=
  let lo := w * sh.vpw.toNat
  (List.range' lo (min sh.size.toNat (lo + sh.vpw.toNat) - lo)).map s.readValue

/-- The words FROMVALUES packs from VBUF (R113). -/
def State.packedWords (s : State) (sh : Shape) : List Word :=
  (List.range sh.nwords.toNat).map fun w => packGroup sh (s.groupValues sh w)

/-- `n` values from the low end of a word: mask, then shift right by BITS, again and again (R171, R172). -/
def wordSlots (sh : Shape) : Nat → Word → List Value
  | 0, _ => []
  | n + 1, word => (word &&& sh.mask).setWidth 32 :: wordSlots sh n (word >>> sh.bits.toNat)

/-- GETALL's two loops (R171): from each word up to VPW values, until `left` values have been given. -/
def emitSlots (sh : Shape) : List Word → Nat → List Value
  | [], _ => []
  | word :: rest, left => wordSlots sh (min sh.vpw.toNat left) word ++ emitSlots sh rest (left - sh.vpw.toNat)

/-- UNPACK's two phases (R172): VPW values from every word but the last, then from the last word what is left. -/
def unpackSlots (sh : Shape) : List Word → Nat → List Value
  | [], _ => []
  | [word], left => wordSlots sh left word
  | word :: next :: rest, left =>
    wordSlots sh sh.vpw.toNat word ++ unpackSlots sh (next :: rest) (left - sh.vpw.toNat)

end Sys2Proof.Machine
end

