-- ==== Sys2Proof/Machine/Access.lean ====
section
/-! DEFINITION. The slot accessors GET, SET, GETANDSET (spec/42_access.md R153 to R159). -/

namespace Sys2Proof.Machine

/-- GET (R153): the slot's value, zero-extended; one word is read, no state written. -/
def execGet (ctx : CtxNum) (index : Value) (s : State) : Host.Outcome State Fault Refusal :=
  finish
    [ illegalCheck (.get ctx index) s, instanceCheck ctx s, indexCheck ctx index s ]
    s
    fun _ => s.respond (s.slotValue ctx index)

/-- SET (R154): the slot takes the low BITS bits of `value`; never a fault on the value (R156). -/
def execSet (ctx : CtxNum) (index value : Value) (s : State) : Host.Outcome State Fault Refusal :=
  finish
    [ illegalCheck (.set ctx index value) s, instanceCheck ctx s, indexCheck ctx index s ]
    s
    fun _ => (s.writeSlot ctx index value).respond 0

/-- GETANDSET (R155): the old value from the word as read, and the effect of SET, in one step. -/
def execGetAndSet (ctx : CtxNum) (index value : Value) (s : State) : Host.Outcome State Fault Refusal :=
  finish
    [ illegalCheck (.getAndSet ctx index value) s, instanceCheck ctx s, indexCheck ctx index s ]
    s
    fun _ => (s.writeSlot ctx index value).respond (s.slotValue ctx index)

end Sys2Proof.Machine
end

