-- ==== Sys2Proof/Machine/Bulk.lean ====
section
/-! DEFINITION. The whole-array operations GETALL, UNPACK, RAWWORDS, CLONE (spec/43_bulk.md R170 to R174). -/

namespace Sys2Proof.Machine

/-- GETALL (R171): SIZE beats, one a slot in index order, appended to CB. -/
def execGetAll (ctx : CtxNum) (s : State) : Host.Outcome State Fault Refusal :=
  let sh := (s.ctx ctx).shape
  finish
    [ illegalCheck (.getAll ctx) s, instanceCheck ctx s ]
    s
    fun _ => (s.emit (emitSlots sh (s.readWords ctx sh.nwords.toNat) sh.size.toNat)).respond (sh.size.setWidth 64)

/-- UNPACK (R172): every slot in index order into VBUF cells 0 to SIZE - 1. -/
def execUnpack (ctx : CtxNum) (s : State) : Host.Outcome State Fault Refusal :=
  let sh := (s.ctx ctx).shape
  finish
    [ illegalCheck (.unpack ctx) s, instanceCheck ctx s, capacityCheck sh.size.toNat s.cfg.vbufLen ]
    s
    fun _ => (s.writeValues 0 (unpackSlots sh (s.readWords ctx sh.nwords.toNat) sh.size.toNat)).respond
      (sh.size.setWidth 64)

/-- RAWWORDS (R173): a snapshot of words 0 to NWORDS - 1 into WBUF. -/
def execRawWords (ctx : CtxNum) (s : State) : Host.Outcome State Fault Refusal :=
  let sh := (s.ctx ctx).shape
  finish
    [ illegalCheck (.rawWords ctx) s, instanceCheck ctx s, capacityCheck sh.nwords.toNat s.cfg.wbufLen ]
    s
    fun _ => (s.writeStaged 0 (s.readWords ctx sh.nwords.toNat)).respond (sh.nwords.setWidth 64)

/-- The effect of CLONE before its response: the destination becomes a copy, unless it is the source (R174). -/
def State.copyContext (s : State) (dst src : CtxNum) : State :=
  if dst = src then s
  else s.build dst (s.ctx src).shape (s.readWords src (s.ctx src).shape.nwords.toNat)

/-- CLONE (R174): `ctx` becomes a copy of `src`; no capacity check is needed. -/
def execClone (ctx src : CtxNum) (s : State) : Host.Outcome State Fault Refusal :=
  finish
    [ illegalCheck (.clone ctx src) s, instanceCheck src s ]
    s
    fun _ => (s.copyContext ctx src).respond ((s.ctx src).shape.nwords.setWidth 64)

end Sys2Proof.Machine
end

