-- ==== Sys2Proof/Machine/Construct.lean ====
section
/-! DEFINITION. The constructors NEW, FROMVALUES, FROMWORDS (spec/40_construct.md R110 to R116). Each lists its checks in
the order of R202 and then builds the whole context; a fault leaves the context as it was (R115). -/

namespace Sys2Proof.Machine

/-- NEW (R112): a context of `size` slots of `bitsarg` bits, every word 0. -/
def execNew (ctx : CtxNum) (bitsarg : BitVec 8) (size : Value) (s : State) : Host.Outcome State Fault Refusal :=
  let sh := shapeOf bitsarg.toNat size.toNat
  finish
    [ illegalCheck (.new ctx bitsarg size) s,
      widthCheck bitsarg,
      capacityCheck sh.nwords.toNat s.cfg.wordsCap ]
    s
    fun _ => (s.build ctx sh (List.replicate sh.nwords.toNat 0)).respond (sh.nwords.setWidth 64)

/-- FROMVALUES (R113): the words are packed from VBUF cells 0 to size - 1. -/
def execFromValues (ctx : CtxNum) (bitsarg : BitVec 8) (size : Value) (s : State) :
    Host.Outcome State Fault Refusal :=
  let sh := shapeOf bitsarg.toNat size.toNat
  finish
    [ illegalCheck (.fromValues ctx bitsarg size) s,
      widthCheck bitsarg,
      capacityCheck sh.nwords.toNat s.cfg.wordsCap,
      capacityCheck size.toNat s.cfg.vbufLen ]
    s
    fun _ => (s.build ctx sh (s.packedWords sh)).respond (sh.nwords.setWidth 64)

/-- FROMWORDS (R114): the words are WBUF cells 0 to NWORDS - 1, verbatim; `wlen` must be NWORDS. -/
def execFromWords (ctx : CtxNum) (bitsarg : BitVec 8) (size wlen : Value) (s : State) :
    Host.Outcome State Fault Refusal :=
  let sh := shapeOf bitsarg.toNat size.toNat
  finish
    [ illegalCheck (.fromWords ctx bitsarg size wlen) s,
      widthCheck bitsarg,
      lengthCheck sh.nwords.toNat wlen.toNat,
      capacityCheck sh.nwords.toNat s.cfg.wordsCap,
      capacityCheck wlen.toNat s.cfg.wbufLen ]
    s
    fun _ => (s.build ctx sh ((List.range sh.nwords.toNat).map s.readStaged)).respond (sh.nwords.setWidth 64)

end Sys2Proof.Machine
end

