-- ==== Sys2Proof/Machine/Indexer.lean ====
section
/-! DEFINITION. WIDX (spec/41_indexer.md R139). -/

namespace Sys2Proof.Machine

/-- The response data of WIDX: `{zext_24(0), off[7:0], w[31:0]}` (R83, R139). -/
def widxData (w off : Nat) : BitVec 64 := 0#24 ++ BitVec.ofNat 8 off ++ BitVec.ofNat 32 w

/-- WIDX (R139): the word index and the bit offset of a slot; reads no word and writes no state. -/
def execWidx (ctx : CtxNum) (index : Value) (s : State) : Host.Outcome State Fault Refusal :=
  let sh := (s.ctx ctx).shape
  finish
    [ illegalCheck (.widx ctx index) s, instanceCheck ctx s, indexCheck ctx index s ]
    s
    fun _ => s.respond (widxData (sh.wordIndex index) (sh.bitOffset index))

end Sys2Proof.Machine
end

