-- ==== Sys2Proof/Machine/Dispatch.lean ====
section
/-! DEFINITION. One arm per operation, each one direct call of its meaning. -/

namespace Sys2Proof.Machine

/-- The effect of one decoded command. -/
def exec (i : Instr) (s : State) : Host.Outcome State Fault Refusal :=
  match i with
  -- construction
  | .new ctx bitsarg size => Sys2Proof.Machine.execNew ctx bitsarg size s
  | .fromValues ctx bitsarg size => Sys2Proof.Machine.execFromValues ctx bitsarg size s
  | .fromWords ctx bitsarg size wlen => Sys2Proof.Machine.execFromWords ctx bitsarg size wlen s
  -- the word-indexer
  | .widx ctx index => Sys2Proof.Machine.execWidx ctx index s
  -- slot accessors
  | .get ctx index => Sys2Proof.Machine.execGet ctx index s
  | .set ctx index value => Sys2Proof.Machine.execSet ctx index value s
  | .getAndSet ctx index value => Sys2Proof.Machine.execGetAndSet ctx index value s
  -- whole-array operations
  | .getAll ctx => Sys2Proof.Machine.execGetAll ctx s
  | .unpack ctx => Sys2Proof.Machine.execUnpack ctx s
  | .rawWords ctx => Sys2Proof.Machine.execRawWords ctx s
  | .clone ctx src => Sys2Proof.Machine.execClone ctx src s

end Sys2Proof.Machine
end

