-- ==== Sys2Proof/Machine/HostPort.lean ====
section
/-! DEFINITION. What a step does for a host action that is no command (spec/10_state.md R31; spec/20_memory.md R69;
spec/70_reset_and_hazards.md R230), and for a word that is no operation (spec/30_encoding.md R86 (a)). -/

namespace Sys2Proof.Machine

/-- The host writes a cell of VBUF between two commands (R31). There is no cell at VBUF_LEN or above (R29). -/
def hostWriteValue (address : Nat) (value : Value) (s : State) : Host.Outcome State Fault Refusal :=
  if address < s.cfg.vbufLen then .next { s with vbuf := Memory.write s.vbuf address value }
  else .fault (.noValueCell address)

/-- The host writes a cell of WBUF between two commands (R31). There is no cell at WBUF_LEN or above (R30). -/
def hostWriteWord (address : Nat) (word : Word) (s : State) : Host.Outcome State Fault Refusal :=
  if address < s.cfg.wbufLen then .next { s with wbuf := Memory.write s.wbuf address word }
  else .fault (.noWordCell address)

/-- The reset input (R230): the state of R38, the unspecified contents chosen anew. What the host still has lined up and
the responses it was given are the host's and stay (log entry 5). -/
def hostReset (s : State) : Host.Outcome State Fault Refusal :=
  .next { State.resetWith s.cfg (s.resets + 1) with inputs := s.inputs, responses := s.responses }

/-- A command word that is no row of the table faults with IllegalCommand (R86 (a), R194). -/
def illegalCommand (cw : CommandWord) (s : State) : Host.Outcome State Fault Refusal :=
  .next (s.raise (illegalRaise cw))

end Sys2Proof.Machine
end

