-- ==== Sys2Proof/Machine/Step.lean ====
section
/-! DEFINITION. One step: the first thing the host has lined up, done to completion (spec/10_state.md R34;
spec/20_memory.md R60, R63). -/

namespace Sys2Proof.Machine

/-- Take the first input and do it. With none lined up the unit waits (R231). -/
def step (s : State) : Host.Outcome State Fault Refusal :=
  match s.inputs with
  | [] => .next s
  | .command cw :: rest =>
    match decode cw with
    | .ok i    => exec i { s with inputs := rest }
    | .error _ => illegalCommand cw { s with inputs := rest }
  | .writeValue a v :: rest => hostWriteValue a v { s with inputs := rest }
  | .writeWord a w :: rest  => hostWriteWord a w { s with inputs := rest }
  | .reset :: rest          => hostReset { s with inputs := rest }

/-- The state in which the very next step runs the given command word: it is put first among the inputs. -/
def State.withFetchWord (s : State) (nbits w : Nat) : State :=
  { s with inputs := .command (tableWord nbits w) :: s.inputs }

end Sys2Proof.Machine
end

