-- ==== Sys2Proof/Safety.lean ====
section
/-! DEFINITION. The terms claims use: a sound context (spec/10_state.md R27, R28), a sound state, and what a command may
leave changed. -/

namespace Sys2Proof.Machine

/-- The registers of a valid context (R27): BITS is 1 to 32, every other register is the function of BITS and SIZE that
its rule gives, and NWORDS is at most WORDS_CAP. -/
abbrev Shape.sound (cfg : Config) (sh : Shape) : Prop :=
  (1 ≤ sh.bits.toNat ∧ sh.bits.toNat ≤ 32) ∧
  sh.mask.toNat = 2 ^ sh.bits.toNat - 1 ∧
  sh.vpw.toNat = 64 / sh.bits.toNat ∧
  sh.nwords.toNat = (sh.size.toNat + sh.vpw.toNat - 1) / sh.vpw.toNat ∧
  magic (sh.vpw.toNat - 1) = { mul := sh.divmul, add := sh.divadd, shift := sh.divshift } ∧
  sh.nwords.toNat ≤ cfg.wordsCap

/-- A context that, if valid, has sound registers and holds a value in each of its words 0 to NWORDS - 1, and nothing
beyond them (R27, R28). -/
abbrev Context.sound (cfg : Config) (x : Context) : Prop :=
  x.words.wf ∧
  (x.valid = true → x.shape.sound cfg ∧ x.words.map Prod.fst = List.range x.shape.nwords.toNat)

/-- A state a run can be in: the parameters are in range (R7), every context is sound (R27), no context of NCTX or more
is valid (R20), the staging buffers are canonical and inside their lengths (R29, R30), the fault registers agree with
FAULT (R33, R190), and every response has a status the spec produces and no data beside a fault (R83, R190). -/
abbrev State.Inv (s : State) : Prop :=
  s.cfg.wf ∧
  (∀ c : CtxNum, (s.ctx c).sound s.cfg) ∧
  (∀ c : CtxNum, s.cfg.nctx ≤ c.toNat → (s.ctx c).valid = false) ∧
  (s.vbuf.wf ∧ ∀ p ∈ s.vbuf, p.1 < s.cfg.vbufLen) ∧
  (s.wbuf.wf ∧ ∀ p ∈ s.wbuf, p.1 < s.cfg.wbufLen) ∧
  (s.fault = false → s.ecode = 0 ∧ s.einfo0 = 0 ∧ s.einfo1 = 0) ∧
  (s.fault = true → 1 ≤ s.ecode.toNat ∧ s.ecode.toNat ≤ 6) ∧
  (∀ r ∈ s.responses, r.status.toNat ≤ 6 ∧ (r.status ≠ okStatus → r.data = 0))

/-! ## Slots, said by the layout alone (R51) -/

/-- The value of slot `i` of context `c`, read off the layout of R51 with no reference to the indexer, the mask or the
extractor: the number that the BITS bits from bit `(i mod VPW) * BITS` of word `floor(i / VPW)` spell. -/
def State.slot (s : State) (c : CtxNum) (i : Nat) : Nat :=
  let sh := (s.ctx c).shape
  (s.readWord c (i / sh.vpw.toNat)).toNat / 2 ^ ((i % sh.vpw.toNat) * sh.bits.toNat) % 2 ^ sh.bits.toNat

/-- The command may name the context, and the context is valid (R82, R157, R170). -/
abbrev State.usable (s : State) (c : CtxNum) : Prop := c.toNat < s.cfg.nctx ∧ (s.ctx c).valid = true

/-- The index is a slot of a usable context (R58, R157). -/
abbrev State.accessible (s : State) (c : CtxNum) (i : Value) : Prop :=
  s.usable c ∧ i.toNat < (s.ctx c).shape.size.toNat

/-! ## Frames -/

/-- The four fault registers are as before (R33). -/
abbrev SameFaultRegisters (s t : State) : Prop :=
  t.fault = s.fault ∧ t.ecode = s.ecode ∧ t.einfo0 = s.einfo0 ∧ t.einfo1 = s.einfo1

/-- A command that ended with status OK and the data `d`: one response, the fault registers, the parameters, what the
host has lined up and the count of resets as before (R33, R83). -/
abbrev EndedOk (s t : State) (d : BitVec 64) : Prop :=
  t.responses = s.responses ++ [{ status := 0, data := d }] ∧ SameFaultRegisters s t ∧
  t.cfg = s.cfg ∧ t.inputs = s.inputs ∧ t.resets = s.resets

/-- Both staging buffers, cell by cell, and the callback stream are as before. -/
abbrev SameBuffers (s t : State) : Prop :=
  (∀ a, t.readValue a = s.readValue a) ∧ (∀ a, t.readStaged a = s.readStaged a) ∧ t.cb = s.cb

/-- Every context but `c` is as before, registers and words (R20). -/
abbrev SameOtherContexts (c : CtxNum) (s t : State) : Prop := ∀ d, d ≠ c → t.ctx d = s.ctx d

/-- Every context is as before, registers and words. -/
abbrev SameContexts (s t : State) : Prop := ∀ d, t.ctx d = s.ctx d

/-- A command that ended with the fault `x` and the information `i0`, `i1`: the state it found, with the fault registers
and the response that R201 gives, and nothing else changed (R200). -/
def faulted (s : State) (x : Cause) (i0 i1 : BitVec 32) : State :=
  { s with fault := true, ecode := x.code, einfo0 := i0, einfo1 := i1,
           responses := s.responses ++ [{ status := x.code, data := 0 }] }

/-! ## What the rules say of faults and of construction, in numbers -/

/-- The faults an operation can raise: the rows of the table of R197. -/
def mayFault : Instr → List Cause
  | .new _ _ _         => [.invalidArgument, .illegalCommand, .capacityExceeded]
  | .fromValues _ _ _  => [.invalidArgument, .illegalCommand, .capacityExceeded]
  | .fromWords _ _ _ _ => [.invalidArgument, .initializationError, .illegalCommand, .capacityExceeded]
  | .widx _ _          => [.indexOutOfBounds, .illegalCommand, .noInstance]
  | .get _ _           => [.indexOutOfBounds, .illegalCommand, .noInstance]
  | .set _ _ _         => [.indexOutOfBounds, .illegalCommand, .noInstance]
  | .getAndSet _ _ _   => [.indexOutOfBounds, .illegalCommand, .noInstance]
  | .getAll _          => [.illegalCommand, .noInstance]
  | .unpack _          => [.illegalCommand, .noInstance, .capacityExceeded]
  | .rawWords _        => [.illegalCommand, .noInstance, .capacityExceeded]
  | .clone _ _         => [.illegalCommand, .noInstance]

/-- NWORDS = ceil(size / floor(64 / bits)) on unbounded naturals (R9, R25, R110). -/
def ceilWords (bits size : Nat) : Nat := (size + 64 / bits - 1) / (64 / bits)

/-- The fault a command reports, in the order of the classes of R202, with the information of R190; none if it ends OK.
An illegal command records the two low 32-bit parts of its word. -/
def expectedFault (i : Instr) (s : State) : Option (Cause × Nat × Nat) :=
  let illegal := some (Cause.illegalCommand, (encode i).toNat % 2 ^ 32, (encode i).toNat / 2 ^ 32 % 2 ^ 32)
  let accessor (c : CtxNum) (a : Value) : Option (Cause × Nat × Nat) :=
    if s.cfg.nctx ≤ c.toNat then illegal
    else if (s.ctx c).valid = false then some (.noInstance, c.toNat, 0)
    else if (s.ctx c).shape.size.toNat ≤ a.toNat then
      some (.indexOutOfBounds, a.toNat, (s.ctx c).shape.size.toNat)
    else none
  match i with
  | .new c bits size =>
    if s.cfg.nctx ≤ c.toNat then illegal
    else if bits.toNat = 0 ∨ 33 ≤ bits.toNat then some (.invalidArgument, bits.toNat, 0)
    else if s.cfg.wordsCap < ceilWords bits.toNat size.toNat then
      some (.capacityExceeded, ceilWords bits.toNat size.toNat, s.cfg.wordsCap)
    else none
  | .fromValues c bits size =>
    if s.cfg.nctx ≤ c.toNat then illegal
    else if bits.toNat = 0 ∨ 33 ≤ bits.toNat then some (.invalidArgument, bits.toNat, 0)
    else if s.cfg.wordsCap < ceilWords bits.toNat size.toNat then
      some (.capacityExceeded, ceilWords bits.toNat size.toNat, s.cfg.wordsCap)
    else if s.cfg.vbufLen < size.toNat then some (.capacityExceeded, size.toNat, s.cfg.vbufLen)
    else none
  | .fromWords c bits size wlen =>
    if s.cfg.nctx ≤ c.toNat then illegal
    else if bits.toNat = 0 ∨ 33 ≤ bits.toNat then some (.invalidArgument, bits.toNat, 0)
    else if wlen.toNat ≠ ceilWords bits.toNat size.toNat then
      some (.initializationError, ceilWords bits.toNat size.toNat, wlen.toNat)
    else if s.cfg.wordsCap < ceilWords bits.toNat size.toNat then
      some (.capacityExceeded, ceilWords bits.toNat size.toNat, s.cfg.wordsCap)
    else if s.cfg.wbufLen < wlen.toNat then some (.capacityExceeded, wlen.toNat, s.cfg.wbufLen)
    else none
  | .widx c a => accessor c a
  | .get c a => accessor c a
  | .set c a _ => accessor c a
  | .getAndSet c a _ => accessor c a
  | .getAll c =>
    if s.cfg.nctx ≤ c.toNat then illegal
    else if (s.ctx c).valid = false then some (.noInstance, c.toNat, 0)
    else none
  | .unpack c =>
    if s.cfg.nctx ≤ c.toNat then illegal
    else if (s.ctx c).valid = false then some (.noInstance, c.toNat, 0)
    else if s.cfg.vbufLen < (s.ctx c).shape.size.toNat then
      some (.capacityExceeded, (s.ctx c).shape.size.toNat, s.cfg.vbufLen)
    else none
  | .rawWords c =>
    if s.cfg.nctx ≤ c.toNat then illegal
    else if (s.ctx c).valid = false then some (.noInstance, c.toNat, 0)
    else if s.cfg.wbufLen < (s.ctx c).shape.nwords.toNat then
      some (.capacityExceeded, (s.ctx c).shape.nwords.toNat, s.cfg.wbufLen)
    else none
  | .clone d c =>
    if s.cfg.nctx ≤ d.toNat ∨ s.cfg.nctx ≤ c.toNat then illegal
    else if (s.ctx c).valid = false then some (.noInstance, c.toNat, 0)
    else none

/-- A context that holds an instance of the given width and size: valid, its registers as R27 and R110 give them. -/
def builtAs (cfg : Config) (x : Context) (bits : BitVec 8) (size : Value) : Prop :=
  x.valid = true ∧ x.shape.sound cfg ∧ x.shape.bits.toNat = bits.toNat ∧ x.shape.size = size

/-- What SET and GETANDSET do to the context: the slot holds the low BITS bits of the value; every other bit of its
word, every other word, VALID and the registers are as before (R53, R154). -/
def slotWritten (s t : State) (c : CtxNum) (i v : Value) : Prop :=
  let sh := (s.ctx c).shape
  t.slot c i.toNat = v.toNat % 2 ^ sh.bits.toNat ∧
  (∀ j, j < sh.bitOffset i ∨ sh.bitOffset i + sh.bits.toNat ≤ j →
    (t.readWord c (sh.wordIndex i)).getLsbD j = (s.readWord c (sh.wordIndex i)).getLsbD j) ∧
  (∀ w, w ≠ sh.wordIndex i → t.readWord c w = s.readWord c w) ∧
  (t.ctx c).valid = (s.ctx c).valid ∧ (t.ctx c).shape = (s.ctx c).shape

end Sys2Proof.Machine
end

