-- ==== Sys2Proof/Certificates/Slice0/Obligations.lean ====
section
/-! DEFINITION. The statements about the unit, from the numbered rules of spec/. Each docstring names the rule it comes
from; where a clause rests on a choice of the model, it names the log entry. The words used (`sound`, `Inv`, `slot`,
`usable`, `accessible`, `EndedOk`, `faulted`, the frames) are those of Sys2Proof/Safety.lean. -/

open Sys2Proof Sys2Proof.Machine

/-! ## The command word -/

/-- R81, R84, R85: the decoder reads every encoded command back, with every operand at every value. -/
def Obligations.DecodeEncodeRoundTrip : Prop :=
  ∀ i : Instr, decode (encode i) = .ok i

/-- R81, R85: a word that decodes is the encoding of what it decodes to: no bit of it is ignored. -/
def Obligations.DecodedWordIsItsEncoding : Prop :=
  ∀ (cw : CommandWord) (i : Instr), decode cw = .ok i → encode i = cw

/-- R85: a word is the operation of a row exactly when `CW & mask == match`; the rows are disjoint; a word that matches
no row is the one the decoder rejects. -/
def Obligations.DecoderIsTheOperationTable : Prop :=
  (∀ row ∈ opTable, ∀ cw : CommandWord,
    cw &&& row.mask = row.pattern ↔ ∃ i, decode cw = .ok i ∧ i.mnemonic = row.mnemonic ∧ encode i = cw) ∧
  opTable.Pairwise (fun r q => ∀ cw : CommandWord, ¬ (cw &&& r.mask = r.pattern ∧ cw &&& q.mask = q.pattern)) ∧
  (∀ cw : CommandWord, (∀ row ∈ opTable, cw &&& row.mask ≠ row.pattern) ↔ ∃ e, decode cw = .error e)

/-- R81, R84: words the spec prints (spec/95_test_vectors.md) decode to the commands they stand for. -/
def Obligations.PrintedWordsDecode : Prop :=
  decode 0x00000000_00001000_000D0001#96 = .ok (.new 0 13 4096) ∧
  decode 0x00000002_00000008_00090103#96 = .ok (.fromWords 1 9 8 2) ∧
  decode 0x00000000_00000019_00000010#96 = .ok (.widx 0 25) ∧
  decode 0xFFFFFFFF_00000FFF_00000021#96 = .ok (.set 0 4095 0xFFFFFFFF) ∧
  decode 0x00000000_00000000_00001033#96 = .ok (.clone 0 1) ∧
  decode 0x00000000_00000000_00000000#96 = .error (.unknownOp 0) ∧
  decode 0x00000000_00000001_00000030#96 = .error (.nonZeroField 0x30)

/-- R34, R60, R63: a step whose first input is a command that decodes is the command's effect on the state with that
input taken. -/
def Obligations.StepRunsDecodedCommand : Prop :=
  ∀ (s : State) (cw : CommandWord) (rest : List HostAction) (i : Instr),
    s.inputs = .command cw :: rest → decode cw = .ok i → step s = exec i { s with inputs := rest }

/-- R86, R194: a word that matches no row, or names a context of NCTX or more, faults with IllegalCommand, records
CW[31:0] and CW[63:32] and changes nothing else; every other word runs as the operation it decodes to, whose context
numbers are legal. -/
def Obligations.IllegalWordsFault : Prop :=
  ∀ (s : State) (cw : CommandWord) (rest : List HostAction), s.inputs = .command cw :: rest →
    let illegal := (∀ row ∈ opTable, cw &&& row.mask ≠ row.pattern) ∨
      s.cfg.nctx ≤ (cw.extractLsb' 8 4).toNat ∨
      (cw.extractLsb' 0 8 = 0x33#8 ∧ s.cfg.nctx ≤ (cw.extractLsb' 12 4).toNat)
    (illegal → step s = .next (faulted { s with inputs := rest } .illegalCommand
      (cw.extractLsb' 0 32) (cw.extractLsb' 32 32))) ∧
    (¬ illegal → ∃ i, decode cw = .ok i ∧ i.wf s.cfg = true ∧ step s = exec i { s with inputs := rest })

/-- R231 and log entry 4: with nothing lined up by the host the unit waits, unchanged. -/
def Obligations.UnitWaitsForACommand : Prop :=
  ∀ s : State, s.inputs = [] → step s = .next s

/-! ## Faults -/

/-- R190, R201: what fault entry writes, and the code of each fault. -/
def Obligations.FaultEntryWritesFourRegisters : Prop :=
  (∀ (s : State) (x : Cause) (i0 i1 : Nat),
    s.raise { cause := x, info0 := i0, info1 := i1 } =
      { s with fault := true, ecode := x.code, einfo0 := BitVec.ofNat 32 i0, einfo1 := BitVec.ofNat 32 i1,
               responses := s.responses ++ [{ status := x.code, data := 0 }] }) ∧
  Cause.code .invalidArgument = 1 ∧ Cause.code .initializationError = 2 ∧ Cause.code .indexOutOfBounds = 3 ∧
  Cause.code .illegalCommand = 4 ∧ Cause.code .noInstance = 5 ∧ Cause.code .capacityExceeded = 6

/-- R200, R83, R33: every command, in every state, completes with exactly one response; if its status is not OK the
state is the one before the command plus fault entry, and if it is OK the four fault registers are as before. The same
of a step that takes any command word at all, one that is no operation among them. -/
def Obligations.FaultingCommandChangesOnlyFaultRegisters : Prop :=
  let completes (s : State) (outcome : Host.Outcome State Fault Refusal) : Prop :=
    ∃ t r, outcome = .next t ∧ t.responses = s.responses ++ [r] ∧
      (r.status ≠ 0 → ∃ x i0 i1, t = faulted s x i0 i1) ∧ (r.status = 0 → SameFaultRegisters s t)
  (∀ (i : Instr) (s : State), completes s (exec i s)) ∧
  (∀ (s : State) (cw : CommandWord) (rest : List HostAction), s.inputs = .command cw :: rest →
    completes { s with inputs := rest } (step s))

/-- R197: an operation ends OK or with a fault of its row, and each fault of its row can occur, in a state of the
invariant. -/
def Obligations.OperationsFaultAsTabled : Prop :=
  (∀ (i : Instr) (s t : State), exec i s = .next t →
    (∃ d, t.responses = s.responses ++ [{ status := 0, data := d }]) ∨
    (∃ x ∈ mayFault i, ∃ i0 i1, t = faulted s x i0 i1)) ∧
  (∀ (i : Instr), ∀ x ∈ mayFault i, ∃ (j : Instr) (s : State) (i0 i1 : BitVec 32),
    s.Inv ∧ j.mnemonic = i.mnemonic ∧ exec j s = .next (faulted s x i0 i1))

/-- R202: a command reports the first cause that applies, in the order of its class, and no other; with no cause it ends
OK. A word that is no operation reports IllegalCommand, whatever else it asks for. -/
def Obligations.CommandReportsTheFirstCause : Prop :=
  (∀ (i : Instr) (s : State),
    (∀ x i0 i1, expectedFault i s = some (x, i0, i1) →
      exec i s = .next (faulted s x (BitVec.ofNat 32 i0) (BitVec.ofNat 32 i1))) ∧
    (expectedFault i s = none →
      ∃ t d, exec i s = .next t ∧ t.responses = s.responses ++ [{ status := 0, data := d }])) ∧
  (∀ (s : State) (cw : CommandWord) (rest : List HostAction) (e : DecodeError),
    s.inputs = .command cw :: rest → decode cw = .error e →
    step s = .next (faulted { s with inputs := rest } .illegalCommand (cw.extractLsb' 0 32) (cw.extractLsb' 32 32)))

/-- R191: a constructor whose `bitsarg` is 0 or 33 or more faults with InvalidArgument, records (bitsarg, 0) and leaves
everything else; no other command and no other cause gives that status. -/
def Obligations.BadWidthIsInvalidArgument : Prop :=
  (∀ (s : State) (c : CtxNum) (bits : BitVec 8) (size wlen : Value),
    c.toNat < s.cfg.nctx → (bits.toNat = 0 ∨ 33 ≤ bits.toNat) →
    ∀ i ∈ [Instr.new c bits size, .fromValues c bits size, .fromWords c bits size wlen],
      exec i s = .next (faulted s .invalidArgument (bits.setWidth 32) 0)) ∧
  (∀ (i : Instr) (s t : State), exec i s = .next t → t.responses = s.responses ++ [{ status := 1, data := 0 }] →
    ∃ c bits size wlen, (bits.toNat = 0 ∨ 33 ≤ bits.toNat) ∧
      i ∈ [Instr.new c bits size, .fromValues c bits size, .fromWords c bits size wlen])

/-- R192: FROMWORDS whose `wlen` differs from ceil(size / VPW) faults with InitializationError and records (expected,
actual); no other command and no other cause gives that status. -/
def Obligations.WrongLengthIsInitializationError : Prop :=
  (∀ (s : State) (c : CtxNum) (bits : BitVec 8) (size wlen : Value),
    c.toNat < s.cfg.nctx → 1 ≤ bits.toNat → bits.toNat ≤ 32 → wlen.toNat ≠ ceilWords bits.toNat size.toNat →
    exec (.fromWords c bits size wlen) s =
      .next (faulted s .initializationError (BitVec.ofNat 32 (ceilWords bits.toNat size.toNat)) wlen)) ∧
  (∀ (i : Instr) (s t : State), exec i s = .next t → t.responses = s.responses ++ [{ status := 2, data := 0 }] →
    ∃ c bits size wlen, i = .fromWords c bits size wlen ∧ wlen.toNat ≠ ceilWords bits.toNat size.toNat)

/-- R111, R196: the capacity faults, with the amount needed and the capacity, each when no earlier check applies. -/
def Obligations.TooLargeIsCapacityExceeded : Prop :=
  ∀ (s : State) (c : CtxNum) (bits : BitVec 8) (size : Value), c.toNat < s.cfg.nctx →
    1 ≤ bits.toNat → bits.toNat ≤ 32 →
    let need := ceilWords bits.toNat size.toNat
    (s.cfg.wordsCap < need →
      ∀ i ∈ [Instr.new c bits size, .fromValues c bits size, .fromWords c bits size (BitVec.ofNat 32 need)],
        exec i s = .next (faulted s .capacityExceeded (BitVec.ofNat 32 need) (BitVec.ofNat 32 s.cfg.wordsCap))) ∧
    (need ≤ s.cfg.wordsCap → s.cfg.vbufLen < size.toNat →
      exec (.fromValues c bits size) s =
        .next (faulted s .capacityExceeded size (BitVec.ofNat 32 s.cfg.vbufLen))) ∧
    (need ≤ s.cfg.wordsCap → s.cfg.wbufLen < need →
      exec (.fromWords c bits size (BitVec.ofNat 32 need)) s =
        .next (faulted s .capacityExceeded (BitVec.ofNat 32 need) (BitVec.ofNat 32 s.cfg.wbufLen))) ∧
    ((s.ctx c).valid = true → s.cfg.vbufLen < (s.ctx c).shape.size.toNat →
      exec (.unpack c) s =
        .next (faulted s .capacityExceeded (s.ctx c).shape.size (BitVec.ofNat 32 s.cfg.vbufLen))) ∧
    ((s.ctx c).valid = true → s.cfg.wbufLen < (s.ctx c).shape.nwords.toNat →
      exec (.rawWords c) s =
        .next (faulted s .capacityExceeded (s.ctx c).shape.nwords (BitVec.ofNat 32 s.cfg.wbufLen)))

/-- R157, R193, R195: the preamble of the operations that take an index, in its order; a failed check mutates nothing. -/
def Obligations.IndexTakersCheckContextThenIndex : Prop :=
  ∀ (s : State) (c : CtxNum) (a v : Value), c.toNat < s.cfg.nctx →
    ∀ i ∈ [Instr.widx c a, .get c a, .set c a v, .getAndSet c a v],
      ((s.ctx c).valid = false → exec i s = .next (faulted s .noInstance (c.setWidth 32) 0)) ∧
      ((s.ctx c).valid = true → (s.ctx c).shape.size.toNat ≤ a.toNat →
        exec i s = .next (faulted s .indexOutOfBounds a (s.ctx c).shape.size))

/-- R170: the context a whole-array operation reads must be valid, for CLONE the source; none of the four makes an
index check. -/
def Obligations.WholeArrayOperationsCheckContext : Prop :=
  ∀ (s : State) (d c : CtxNum), ∀ i ∈ [Instr.getAll c, .unpack c, .rawWords c, .clone d c],
    (c.toNat < s.cfg.nctx → d.toNat < s.cfg.nctx → (s.ctx c).valid = false →
      exec i s = .next (faulted s .noInstance (c.setWidth 32) 0)) ∧
    (∀ i0 i1, exec i s ≠ .next (faulted s .indexOutOfBounds i0 i1))

/-! ## Construction -/

/-- R112: where its checks pass NEW builds a context of zeroed words, responds with their number, and touches nothing
else. -/
def Obligations.NewBuildsZeroedWords : Prop :=
  ∀ (s : State) (c : CtxNum) (bits : BitVec 8) (size : Value),
    c.toNat < s.cfg.nctx → 1 ≤ bits.toNat → bits.toNat ≤ 32 → ceilWords bits.toNat size.toNat ≤ s.cfg.wordsCap →
    ∃ t, exec (.new c bits size) s = .next t ∧ builtAs s.cfg (t.ctx c) bits size ∧
      (∀ w < ceilWords bits.toNat size.toNat, t.readWord c w = 0) ∧
      EndedOk s t (BitVec.ofNat 64 (ceilWords bits.toNat size.toNat)) ∧
      SameBuffers s t ∧ SameOtherContexts c s t

/-- R113: where its checks pass FROMVALUES builds a context whose slot i holds `VBUF[i] & MASK`, every padding bit and
every padding slot 0, and touches nothing else. A VBUF cell nothing has written has an unspecified value, whatever it
is (log entry 3). -/
def Obligations.FromValuesPacksMaskedValues : Prop :=
  ∀ (s : State) (c : CtxNum) (bits : BitVec 8) (size : Value),
    c.toNat < s.cfg.nctx → 1 ≤ bits.toNat → bits.toNat ≤ 32 → ceilWords bits.toNat size.toNat ≤ s.cfg.wordsCap →
    size.toNat ≤ s.cfg.vbufLen →
    ∃ t, exec (.fromValues c bits size) s = .next t ∧ builtAs s.cfg (t.ctx c) bits size ∧
      (∀ i < size.toNat, t.slot c i = (s.readValue i).toNat % 2 ^ bits.toNat) ∧
      (∀ w < ceilWords bits.toNat size.toNat,
        (t.readWord c w).toNat < 2 ^ (bits.toNat * min (64 / bits.toNat) (size.toNat - w * (64 / bits.toNat)))) ∧
      EndedOk s t (BitVec.ofNat 64 (ceilWords bits.toNat size.toNat)) ∧
      SameBuffers s t ∧ SameOtherContexts c s t

/-- R114: where its checks pass FROMWORDS builds a context around WBUF's words, taken verbatim, and touches nothing
else. A WBUF cell nothing has written has an unspecified value, whatever it is (log entry 3). -/
def Obligations.FromWordsTakesWordsVerbatim : Prop :=
  ∀ (s : State) (c : CtxNum) (bits : BitVec 8) (size wlen : Value),
    c.toNat < s.cfg.nctx → 1 ≤ bits.toNat → bits.toNat ≤ 32 → wlen.toNat = ceilWords bits.toNat size.toNat →
    ceilWords bits.toNat size.toNat ≤ s.cfg.wordsCap → wlen.toNat ≤ s.cfg.wbufLen →
    ∃ t, exec (.fromWords c bits size wlen) s = .next t ∧ builtAs s.cfg (t.ctx c) bits size ∧
      (∀ w < wlen.toNat, t.readWord c w = s.readStaged w) ∧
      EndedOk s t (wlen.setWidth 64) ∧ SameBuffers s t ∧ SameOtherContexts c s t

/-! ## The word-indexer -/

/-- R132: neither the product nor the sum of the indexer wraps: both stay within their bounds, the 64-bit product and sum
are the exact ones, and `MulShift` is the exact sum on naturals, divided by 2^32 and then by 2^shift. -/
def Obligations.IndexerNeverOverflows : Prop :=
  ∀ (i mul add : BitVec 32) (shift : BitVec 3),
    (mulShift i mul add shift).toNat = (i.toNat * mul.toNat + add.toNat) / 2 ^ 32 / 2 ^ shift.toNat ∧
    i.toNat * mul.toNat ≤ (2 ^ 32 - 1) ^ 2 ∧
    i.toNat * mul.toNat + add.toNat ≤ (2 ^ 32 - 1) * 2 ^ 32 ∧
    (i.setWidth 64 * mul.setWidth 64).toNat = i.toNat * mul.toNat ∧
    (i.setWidth 64 * mul.setWidth 64 + add.setWidth 64).toNat = i.toNat * mul.toNat + add.toNat

/-- R136: for each divisor 1 to 64 and every 32-bit index, with the constants of R135, the multiply-shift is the quotient
when the divisor is a power of two, and otherwise exactly when `(i + 1) * r <= (t + 1) * 2^32`, r and t being the
remainders of 2^32 and of i; where it is not, it is one less. -/
def Obligations.MultiplyShiftExactness : Prop :=
  ∀ (d : Nat) (i : BitVec 32), 1 ≤ d → d ≤ 64 →
    let m := magic (d - 1)
    let result := (mulShift i m.mul m.add m.shift).toNat
    ((∃ k, d = 2 ^ k) → result = i.toNat / d) ∧
    ((¬ ∃ k, d = 2 ^ k) →
      ((i.toNat + 1) * (2 ^ 32 % d) ≤ (i.toNat % d + 1) * 2 ^ 32 → result = i.toNat / d) ∧
      ((i.toNat % d + 1) * 2 ^ 32 < (i.toNat + 1) * (2 ^ 32 % d) → result + 1 = i.toNat / d))

/-- R131, R137: in every valid context, for every index below SIZE, the multiply-shift of the context's constants is
`floor(i / VPW)`, a word of the context. -/
def Obligations.WordIndexIsTheQuotient : Prop :=
  ∀ (s : State) (c : CtxNum) (i : Value), s.Inv → (s.ctx c).valid = true →
    i.toNat < (s.ctx c).shape.size.toNat →
    let sh := (s.ctx c).shape
    (mulShift i sh.divmul sh.divadd sh.divshift).toNat = i.toNat / sh.vpw.toNat ∧
    sh.wordIndex i = i.toNat / sh.vpw.toNat ∧ sh.wordIndex i < sh.nwords.toNat

/-- R140: `BitOffset(c, i)` is `(i mod VPW) * BITS`, in 0 to 63; its subtraction never goes below 0. With R55: the slot
ends inside the word. -/
def Obligations.BitOffsetStaysInTheWord : Prop :=
  ∀ (s : State) (c : CtxNum) (i : Value), s.Inv → (s.ctx c).valid = true →
    i.toNat < (s.ctx c).shape.size.toNat →
    let sh := (s.ctx c).shape
    sh.wordIndex i * sh.vpw.toNat ≤ i.toNat ∧
    sh.bitOffset i = (i.toNat - sh.wordIndex i * sh.vpw.toNat) * sh.bits.toNat ∧
    sh.bitOffset i = (i.toNat % sh.vpw.toNat) * sh.bits.toNat ∧ sh.bitOffset i ≤ 63 ∧
    sh.bitOffset i + sh.bits.toNat ≤ 64

/-- R139: on a slot of a usable context WIDX responds with the word index in data[31:0], the bit offset in data[39:32]
and zeros above, and changes nothing. -/
def Obligations.WidxAnswersWordAndOffset : Prop :=
  ∀ (s : State) (c : CtxNum) (i : Value), s.Inv → s.accessible c i →
    let sh := (s.ctx c).shape
    ∃ t d, exec (.widx c i) s = .next t ∧
      d.toNat = i.toNat / sh.vpw.toNat + 2 ^ 32 * ((i.toNat % sh.vpw.toNat) * sh.bits.toNat) ∧
      EndedOk s t d ∧ SameContexts s t ∧ SameBuffers s t

/-! ## The slot accessors -/

/-- R152: read-after-write, independence, padding, idempotence, and that only the low BITS bits of the value matter, for
offsets that are multiples of BITS at most 64 - BITS. -/
def Obligations.ExtractorAndDepositorLaws : Prop :=
  ∀ (bits off off' : Nat) (word : Word) (v : Value), 1 ≤ bits → bits ≤ 32 →
    bits ∣ off → off ≤ 64 - bits → bits ∣ off' → off' ≤ 64 - bits →
    let mask : Word := BitVec.ofNat 64 (2 ^ bits - 1)
    let value : Word := v.setWidth 64
    extract (deposit word off mask value) off mask = value &&& mask ∧
    (off' ≠ off → extract (deposit word off mask value) off' mask = extract word off' mask) ∧
    (∀ j, 64 / bits * bits ≤ j → (deposit word off mask value).getLsbD j = word.getLsbD j) ∧
    deposit (deposit word off mask value) off mask value = deposit word off mask value ∧
    deposit word off mask value = deposit word off mask (value &&& mask)

/-- R153: on a slot of a usable context GET responds with the slot's value and changes nothing. -/
def Obligations.GetAnswersTheSlot : Prop :=
  ∀ (s : State) (c : CtxNum) (i : Value), s.Inv → s.accessible c i →
    ∃ t, exec (.get c i) s = .next t ∧ EndedOk s t (BitVec.ofNat 64 (s.slot c i.toNat)) ∧
      SameContexts s t ∧ SameBuffers s t

/-- R154: on a slot of a usable context SET writes the slot, responds 0 and touches nothing else. -/
def Obligations.SetWritesOnlyTheSlot : Prop :=
  ∀ (s : State) (c : CtxNum) (i v : Value), s.Inv → s.accessible c i →
    ∃ t, exec (.set c i v) s = .next t ∧ slotWritten s t c i v ∧ EndedOk s t 0 ∧
      SameOtherContexts c s t ∧ SameBuffers s t

/-- R155: on a slot of a usable context GETANDSET responds with the slot's old value, writes the slot and touches
nothing else. -/
def Obligations.GetAndSetAnswersOldAndWrites : Prop :=
  ∀ (s : State) (c : CtxNum) (i v : Value), s.Inv → s.accessible c i →
    ∃ t, exec (.getAndSet c i v) s = .next t ∧ slotWritten s t c i v ∧
      EndedOk s t (BitVec.ofNat 64 (s.slot c i.toNat)) ∧ SameOtherContexts c s t ∧ SameBuffers s t

/-- R155, the source's property 3: GETANDSET is GET followed by SET with the same operands, with GET's response. -/
def Obligations.GetAndSetIsGetThenSet : Prop :=
  ∀ (s : State) (c : CtxNum) (i v : Value), s.accessible c i →
    ∃ g u w r, exec (.get c i) s = .next g ∧ g.responses = s.responses ++ [r] ∧
      exec (.set c i v) g = .next u ∧ u.responses = g.responses ++ [{ status := 0, data := 0 }] ∧
      exec (.getAndSet c i v) s = .next w ∧ w = { u with responses := s.responses ++ [r] }

/-- R159: a SET then a GET of the same slot responds with `v & MASK`, for every width, size, index and value. -/
def Obligations.SetThenGetReadsBack : Prop :=
  ∀ (s : State) (c : CtxNum) (i v : Value), s.Inv → s.accessible c i →
    ∃ t u, exec (.set c i v) s = .next t ∧ exec (.get c i) t = .next u ∧
      u.responses = s.responses ++
        [{ status := 0, data := 0 }, { status := 0, data := v.setWidth 64 &&& (s.ctx c).shape.mask }]

/-- R158: a SET of one slot never changes what GET responds for another. -/
def Obligations.SetNeverChangesAnotherSlot : Prop :=
  ∀ (s : State) (c : CtxNum) (i j v : Value), s.Inv → s.accessible c i → s.accessible c j → i ≠ j →
    ∃ t g h r, exec (.set c i v) s = .next t ∧
      exec (.get c j) s = .next g ∧ g.responses = s.responses ++ [r] ∧
      exec (.get c j) t = .next h ∧ h.responses = t.responses ++ [r]

/-- R156: SET and GETANDSET never fault on the value and leave no trace of its discarded bits: two values that agree
under the mask of the context give one and the same outcome, in every state. -/
def Obligations.DiscardedValueBitsLeaveNoTrace : Prop :=
  ∀ (s : State) (c : CtxNum) (i v v' : Value),
    v.setWidth 64 &&& (s.ctx c).shape.mask = v'.setWidth 64 &&& (s.ctx c).shape.mask →
    exec (.set c i v) s = exec (.set c i v') s ∧ exec (.getAndSet c i v) s = exec (.getAndSet c i v') s

/-! ## The whole-array operations -/

/-- R171: GETALL on a usable context appends exactly SIZE beats to CB, beat k the value of slot k, responds with SIZE and
touches nothing else. -/
def Obligations.GetAllEmitsEverySlotInOrder : Prop :=
  ∀ (s : State) (c : CtxNum), s.Inv → s.usable c →
    ∃ t, exec (.getAll c) s = .next t ∧
      t.cb = s.cb ++ (List.range (s.ctx c).shape.size.toNat).map (fun k => BitVec.ofNat 32 (s.slot c k)) ∧
      EndedOk s t ((s.ctx c).shape.size.setWidth 64) ∧ SameContexts s t ∧
      (∀ a, t.readValue a = s.readValue a) ∧ (∀ a, t.readStaged a = s.readStaged a)

/-- R172: UNPACK on a usable context that fits VBUF puts the value of slot k in VBUF cell k for every k below SIZE,
leaves the cells at SIZE and above, responds with SIZE and touches nothing else. -/
def Obligations.UnpackWritesEverySlot : Prop :=
  ∀ (s : State) (c : CtxNum), s.Inv → s.usable c → (s.ctx c).shape.size.toNat ≤ s.cfg.vbufLen →
    ∃ t, exec (.unpack c) s = .next t ∧
      (∀ k < (s.ctx c).shape.size.toNat, t.readValue k = BitVec.ofNat 32 (s.slot c k)) ∧
      (∀ a, (s.ctx c).shape.size.toNat ≤ a → t.readValue a = s.readValue a) ∧
      EndedOk s t ((s.ctx c).shape.size.setWidth 64) ∧ SameContexts s t ∧
      (∀ a, t.readStaged a = s.readStaged a) ∧ t.cb = s.cb

/-- R173: RAWWORDS on a usable context that fits WBUF copies word w to WBUF cell w, all 64 bits, for every w below
NWORDS, leaves the cells at NWORDS and above, responds with NWORDS and touches nothing else. -/
def Obligations.RawWordsCopiesEveryWord : Prop :=
  ∀ (s : State) (c : CtxNum), s.usable c → (s.ctx c).shape.nwords.toNat ≤ s.cfg.wbufLen →
    ∃ t, exec (.rawWords c) s = .next t ∧
      (∀ w < (s.ctx c).shape.nwords.toNat, t.readStaged w = s.readWord c w) ∧
      (∀ a, (s.ctx c).shape.nwords.toNat ≤ a → t.readStaged a = s.readStaged a) ∧
      EndedOk s t ((s.ctx c).shape.nwords.setWidth 64) ∧ SameContexts s t ∧
      (∀ a, t.readValue a = s.readValue a) ∧ t.cb = s.cb

/-- R174: CLONE from a usable context leaves the destination equal to it in every register and word, responds with
NWORDS and touches nothing else; onto itself it changes no context. -/
def Obligations.CloneCopiesTheContext : Prop :=
  ∀ (s : State) (d c : CtxNum), s.Inv → s.usable c → d.toNat < s.cfg.nctx →
    ∃ t, exec (.clone d c) s = .next t ∧
      (t.ctx d).valid = true ∧ (t.ctx d).shape = (s.ctx c).shape ∧
      (∀ w < (s.ctx c).shape.nwords.toNat, t.readWord d w = s.readWord c w) ∧
      (d = c → SameContexts s t) ∧ SameOtherContexts d s t ∧
      EndedOk s t ((s.ctx c).shape.nwords.setWidth 64) ∧ SameBuffers s t

/-- R173, the source's property 5: RAWWORDS and then FROMWORDS with the same width and size rebuild the context: the
same registers, and in every slot the same value. -/
def Obligations.RawWordsThenFromWordsRebuilds : Prop :=
  ∀ (s : State) (c d : CtxNum), s.Inv → s.usable c → d.toNat < s.cfg.nctx →
    (s.ctx c).shape.nwords.toNat ≤ s.cfg.wbufLen →
    let sh := (s.ctx c).shape
    ∃ t u, exec (.rawWords c) s = .next t ∧
      exec (.fromWords d (sh.bits.setWidth 8) sh.size sh.nwords) t = .next u ∧
      u.responses = s.responses ++ [{ status := 0, data := sh.nwords.setWidth 64 },
                                    { status := 0, data := sh.nwords.setWidth 64 }] ∧
      (u.ctx d).valid = true ∧ (u.ctx d).shape = sh ∧ ∀ i < sh.size.toNat, u.slot d i = s.slot c i

/-- R174, the source's property 9: after CLONE, writing the clone never changes a slot of the original, nor the
reverse. -/
def Obligations.CloneIsIsolated : Prop :=
  ∀ (s : State) (d c : CtxNum) (i v : Value), s.Inv → s.accessible c i → d.toNat < s.cfg.nctx → d ≠ c →
    ∃ t u w, exec (.clone d c) s = .next t ∧
      exec (.set d i v) t = .next u ∧ exec (.set c i v) t = .next w ∧
      (∀ k, u.slot c k = s.slot c k) ∧ (∀ k < (s.ctx c).shape.size.toNat, w.slot d k = s.slot c k) ∧
      u.slot d i.toNat = v.toNat % 2 ^ (s.ctx c).shape.bits.toNat

/-! ## The whole machine -/

/-- R27, R7, R20, R33: every step keeps the invariant, whatever the host has lined up. -/
def Obligations.EveryStepKeepsTheInvariant : Prop :=
  ∀ s t : State, s.Inv → step s = .next t → t.Inv

/-- R38: the state after reset meets the invariant, for every choice of the parameters. -/
def Obligations.ResetMeetsTheInvariant : Prop :=
  State.reset.Inv ∧ ∀ (cfg : Config) (n : Nat), cfg.wf → (State.resetWith cfg n).Inv

/-- R38: the values the spec gives for reset: every context invalid, CB empty, the fault registers 0. -/
def Obligations.ResetLeavesTheTabledValues : Prop :=
  ∀ (cfg : Config) (n : Nat), let s := State.resetWith cfg n
    (∀ c, (s.ctx c).valid = false) ∧ s.cb = [] ∧ s.fault = false ∧ s.ecode = 0 ∧ s.einfo0 = 0 ∧ s.einfo1 = 0

/-- R66, R234: every step completes, but for a host write to a staging cell that does not exist, which stops under its
own name (log entry 7). -/
def Obligations.EveryStepCompletes : Prop :=
  ∀ s : State,
    (∃ t, step s = .next t) ∨
    (∃ a v rest, s.inputs = .writeValue a v :: rest ∧ s.cfg.vbufLen ≤ a ∧ step s = .fault (.noValueCell a)) ∨
    (∃ a w rest, s.inputs = .writeWord a w :: rest ∧ s.cfg.wbufLen ≤ a ∧ step s = .fault (.noWordCell a))

/-- R34: the position in the command sequence advances by one for a command, faulting or not. That the position is the
number of responses given is the model's choice (log entry 4), and that a reset leaves it as it is, with the responses,
is the model's choice too (log entry 5): R34 and R230 say nothing of either. -/
def Obligations.PositionAdvancesByOnePerCommand : Prop :=
  ∀ s t : State, step s = .next t →
    t.position = s.position + (match s.inputs with | .command _ :: _ => 1 | _ => 0)

/-- R20, R27: a command leaves every context but its target as it was; and only a constructor or CLONE writes VALID or
a shape register. -/
def Obligations.CommandTouchesOnlyItsContext : Prop :=
  ∀ (i : Instr) (s t : State), exec i s = .next t →
    (∀ d, d ≠ i.target → t.ctx d = s.ctx d) ∧
    (i.mnemonic ∈ ["GET", "SET", "GETANDSET", "WIDX", "GETALL", "UNPACK", "RAWWORDS"] →
      ∀ d, (t.ctx d).valid = (s.ctx d).valid ∧ (t.ctx d).shape = (s.ctx d).shape)

/-- R37: which operation writes VBUF, WBUF and CB; no command touches the parameters, the inputs or the count of
resets, and only SET, GETANDSET, the constructors and CLONE write words. -/
def Obligations.SpacesAreWrittenOnlyAsTabled : Prop :=
  ∀ (i : Instr) (s t : State), exec i s = .next t →
    (i.mnemonic ≠ "UNPACK" → t.vbuf = s.vbuf) ∧ (i.mnemonic ≠ "RAWWORDS" → t.wbuf = s.wbuf) ∧
    (i.mnemonic ≠ "GETALL" → t.cb = s.cb) ∧
    (i.mnemonic ∈ ["WIDX", "GET", "GETALL", "UNPACK", "RAWWORDS"] → ∀ d, (t.ctx d).words = (s.ctx d).words) ∧
    t.cfg = s.cfg ∧ t.inputs = s.inputs ∧ t.resets = s.resets

/-- R20: contexts share nothing. Whatever a context holds that a command names neither as target nor as source, the
command does the same and leaves that content as it was. -/
def Obligations.ContextsShareNothing : Prop :=
  ∀ (i : Instr) (s t : State) (d : CtxNum) (x : Context), d ≠ i.target → i.source ≠ some d →
    exec i s = .next t → exec i (s.setCtx d x) = .next (t.setCtx d x)

/-- R38, R195: what an invalid context's registers and words hold is never observed: replace them by anything, and every
command gives the same response and leaves the same state, but for that content where it stays invalid. No claim can
rest on the values the model chose for them at reset (log entry 1). -/
def Obligations.InvalidContentsAreNeverObserved : Prop :=
  ∀ (i : Instr) (s t : State) (d : CtxNum) (x : Context), (s.ctx d).valid = false → x.valid = false →
    exec i s = .next t →
    ((t.ctx d).valid = true → exec i (s.setCtx d x) = .next t) ∧
    ((t.ctx d).valid = false → exec i (s.setCtx d x) = .next (t.setCtx d x))

/-- R230: reset leaves the state of R38; and reset is the only thing that clears FAULT, makes a valid context invalid or
takes a beat from CB. What the host has lined up, the responses it was given and the parameters stay: that is the model's
choice (log entries 2 and 5). -/
def Obligations.OnlyResetClears : Prop :=
  (∀ (s : State) (rest : List HostAction), s.inputs = .reset :: rest → ∃ t, step s = .next t ∧
    (∀ c, (t.ctx c).valid = false) ∧ t.cb = [] ∧ t.fault = false ∧ t.ecode = 0 ∧ t.einfo0 = 0 ∧ t.einfo1 = 0 ∧
    t.inputs = rest ∧ t.responses = s.responses ∧ t.cfg = s.cfg) ∧
  (∀ s t : State, step s = .next t → s.inputs.head? ≠ some .reset →
    (s.fault = true → t.fault = true) ∧ (∀ c, (s.ctx c).valid = true → (t.ctx c).valid = true) ∧ s.cb <+: t.cb)

/-- R31, R63, R69: a host write of a staging cell that exists is what that cell reads next, and every other cell and all
else is as before. -/
def Obligations.HostWritesOneStagingCell : Prop :=
  ∀ (s : State) (rest : List HostAction) (a : Nat),
    (∀ v, s.inputs = .writeValue a v :: rest → a < s.cfg.vbufLen → ∃ t, step s = .next t ∧
      t.readValue a = v ∧ (∀ b, b ≠ a → t.readValue b = s.readValue b) ∧
      t = { s with inputs := rest, vbuf := t.vbuf }) ∧
    (∀ w, s.inputs = .writeWord a w :: rest → a < s.cfg.wbufLen → ∃ t, step s = .next t ∧
      t.readStaged a = w ∧ (∀ b, b ≠ a → t.readStaged b = s.readStaged b) ∧
      t = { s with inputs := rest, wbuf := t.wbuf })
end

