-- ==== Sys2Proof/Laws/Decode.lean ====
section
/-! SUPPORT. The fields of a packed command word are the ones it was packed from (spec/30_encoding.md R81). -/

namespace Sys2Proof

variable (op : BitVec 8) (ctx ctx2 : CtxNum) (bitsarg : BitVec 8) (a b : Value)

/-- Every bit of a packed command word (R81). -/
theorem getLsbD_packCommand (i : Nat) :
    (packCommand op ctx ctx2 bitsarg a b).getLsbD i =
      if i < 8 then op.getLsbD i else if i < 12 then ctx.getLsbD (i - 8) else if i < 16 then ctx2.getLsbD (i - 12)
      else if i < 24 then bitsarg.getLsbD (i - 16) else if i < 32 then false
      else if i < 64 then a.getLsbD (i - 32) else b.getLsbD (i - 64) := by
  change BitVec.getLsbD (w := 32 + 32 + 8 + 8 + 4 + 4 + 8) (b ++ a ++ 0#8 ++ bitsarg ++ ctx2 ++ ctx ++ op) i = _
  simp only [BitVec.getLsbD_append, Nat.sub_sub]
  repeat' split
  all_goals first | rfl | omega | simp

@[simp] theorem opField_pack : opField (packCommand op ctx ctx2 bitsarg a b) = op := by
  apply BitVec.eq_of_getLsbD_eq
  intro i hi
  rw [opField, BitVec.getLsbD_extractLsb', getLsbD_packCommand]
  repeat' split
  all_goals first | omega | simp [hi]

@[simp] theorem ctxField_pack : ctxField (packCommand op ctx ctx2 bitsarg a b) = ctx := by
  apply BitVec.eq_of_getLsbD_eq
  intro i hi
  rw [ctxField, BitVec.getLsbD_extractLsb', getLsbD_packCommand]
  repeat' split
  all_goals first | omega | simp [hi]

@[simp] theorem ctx2Field_pack : ctx2Field (packCommand op ctx ctx2 bitsarg a b) = ctx2 := by
  apply BitVec.eq_of_getLsbD_eq
  intro i hi
  rw [ctx2Field, BitVec.getLsbD_extractLsb', getLsbD_packCommand]
  repeat' split
  all_goals first | omega | simp [hi]

@[simp] theorem bitsargField_pack : bitsargField (packCommand op ctx ctx2 bitsarg a b) = bitsarg := by
  apply BitVec.eq_of_getLsbD_eq
  intro i hi
  rw [bitsargField, BitVec.getLsbD_extractLsb', getLsbD_packCommand]
  repeat' split
  all_goals first | omega | simp [hi]

@[simp] theorem rsvField_pack : rsvField (packCommand op ctx ctx2 bitsarg a b) = 0 := by
  apply BitVec.eq_of_getLsbD_eq
  intro i hi
  rw [rsvField, BitVec.getLsbD_extractLsb', getLsbD_packCommand]
  repeat' split
  all_goals first | omega | simp [hi]

@[simp] theorem aField_pack : aField (packCommand op ctx ctx2 bitsarg a b) = a := by
  apply BitVec.eq_of_getLsbD_eq
  intro i hi
  rw [aField, BitVec.getLsbD_extractLsb', getLsbD_packCommand]
  repeat' split
  all_goals first | omega | simp [hi]

@[simp] theorem bField_pack : bField (packCommand op ctx ctx2 bitsarg a b) = b := by
  apply BitVec.eq_of_getLsbD_eq
  intro i hi
  rw [bField, BitVec.getLsbD_extractLsb', getLsbD_packCommand]
  repeat' split
  all_goals first | omega | simp [hi]

/-- A command word is its fields (R81): two words with the same fields are one. -/
theorem command_ext {x y : CommandWord} (hop : opField x = opField y) (hctx : ctxField x = ctxField y)
    (hctx2 : ctx2Field x = ctx2Field y) (hbits : bitsargField x = bitsargField y) (hrsv : rsvField x = rsvField y)
    (ha : aField x = aField y) (hb : bField x = bField y) : x = y := by
  apply BitVec.eq_of_getLsbD_eq
  intro i hi
  have get {lo n : Nat} (h : x.extractLsb' lo n = y.extractLsb' lo n) (h1 : lo ≤ i) (h2 : i < lo + n) :
      x.getLsbD i = y.getLsbD i := by
    have := congrArg (fun z => z.getLsbD (i - lo)) h
    simpa [BitVec.getLsbD_extractLsb', show i - lo < n by omega, Nat.add_sub_cancel' h1] using this
  rcases Nat.lt_or_ge i 8 with h | h
  · exact get hop (by omega) (by omega)
  rcases Nat.lt_or_ge i 12 with h | h
  · exact get hctx (by omega) (by omega)
  rcases Nat.lt_or_ge i 16 with h | h
  · exact get hctx2 (by omega) (by omega)
  rcases Nat.lt_or_ge i 24 with h | h
  · exact get hbits (by omega) (by omega)
  rcases Nat.lt_or_ge i 32 with h | h
  · exact get hrsv (by omega) (by omega)
  rcases Nat.lt_or_ge i 64 with h | h
  · exact get ha (by omega) (by omega)
  · exact get hb (by omega) (by omega)

/-- A code names at most one operation (R85: the rows are disjoint because their `op` values differ). -/
theorem opOf_eq_some {code : BitVec 8} {o : Op} : opOf code = some o ↔ code = o.code := by
  constructor
  · intro h
    have := List.find?_some h
    simpa using (beq_iff_eq.1 this).symm
  · rintro rfl
    cases o <;> decide

@[simp] theorem opOf_code (o : Op) : opOf o.code = some o := opOf_eq_some.2 rfl

/-- What decodes, said once: the word carries the code of an operation, its must-be-zero fields are zero, and the
operands are its used fields. -/
theorem decode_eq_ok {cw : CommandWord} {i : Instr} :
    decode cw = .ok i ↔ ∃ o : Op, opField cw = o.code ∧ mustBeZero o cw = true ∧ i = assemble o cw := by
  unfold decode
  constructor
  · intro h
    split at h
    · cases h
    · rename_i o ho
      split at h <;> rename_i hz <;> cases h
      exact ⟨o, opOf_eq_some.1 ho, hz, rfl⟩
  · rintro ⟨o, ho, hz, rfl⟩
    simp [ho, hz]

/-- A word is rejected exactly when it decodes to nothing. -/
theorem decode_error_iff {cw : CommandWord} : (∃ e, decode cw = .error e) ↔ ∀ i, decode cw ≠ .ok i := by
  cases h : decode cw <;> simp

/-- A masked word is a pattern exactly when each of its fields is: the table of R85 read field by field. -/
theorem masked_eq_iff (cw mask pattern : CommandWord) :
    cw &&& mask = pattern ↔
      opField cw &&& opField mask = opField pattern ∧ ctxField cw &&& ctxField mask = ctxField pattern ∧
      ctx2Field cw &&& ctx2Field mask = ctx2Field pattern ∧
      bitsargField cw &&& bitsargField mask = bitsargField pattern ∧
      rsvField cw &&& rsvField mask = rsvField pattern ∧ aField cw &&& aField mask = aField pattern ∧
      bField cw &&& bField mask = bField pattern := by
  constructor
  · rintro rfl
    simp [opField, ctxField, ctx2Field, bitsargField, rsvField, aField, bField, BitVec.extractLsb'_and]
  · rintro ⟨h1, h2, h3, h4, h5, h6, h7⟩
    apply command_ext <;>
      simp_all [opField, ctxField, ctx2Field, bitsargField, rsvField, aField, bField, BitVec.extractLsb'_and]

end Sys2Proof
end

