-- ==== Sys2Proof/Laws/Memory.lean ====
section
/-! SUPPORT. What the memory operations do: a read after a write, and that every write keeps the canonical form
(spec/20_memory.md R61, R63). -/

namespace Sys2Proof.Machine.Memory

variable {width : Nat}

@[simp] theorem read?_nil (x : Nat) : read? ([] : Memory width) x = none := rfl

theorem read?_cons (b : Nat) (v : BitVec width) (m : Memory width) (x : Nat) :
    read? ((b, v) :: m) x = if x = b then some v else read? m x := rfl

theorem read?_append (m n : Memory width) (x : Nat) : read? (m ++ n) x = (read? m x).or (read? n x) := by
  induction m with
  | nil => simp
  | cons p m ih =>
    obtain ⟨b, v⟩ := p
    rw [List.cons_append, read?_cons, read?_cons]
    split <;> simp [ih]

theorem read?_filter (q : Nat → Bool) (m : Memory width) (x : Nat) :
    read? (m.filter fun p => q p.1) x = if q x then read? m x else none := by
  induction m with
  | nil => simp
  | cons p m ih =>
    obtain ⟨b, v⟩ := p
    by_cases hb : q b <;> by_cases hx : x = b <;> simp_all [read?_cons]

theorem read?_run (a : Nat) (vs : List (BitVec width)) (x : Nat) :
    read? (run a vs) x = if a ≤ x then vs[x - a]? else none := by
  induction vs generalizing a with
  | nil => simp [run]
  | cons v vs ih =>
    rw [run, read?_cons, ih]
    rcases Nat.lt_trichotomy x a with h | h | h
    · simp [Nat.ne_of_lt h, Nat.not_le.2 h, show ¬ a + 1 ≤ x by omega]
    · simp [h]
    · obtain ⟨k, rfl⟩ : ∃ k, x = a + 1 + k := ⟨x - (a + 1), by omega⟩
      simp [show a + 1 + k ≠ a by omega, show a ≤ a + 1 + k by omega, show a + 1 + k - a = k + 1 by omega]

/-- The read-after-write law of a run of cells: the run reads as written, every other cell as before. -/
theorem read?_writeRun (m : Memory width) (a : Nat) (vs : List (BitVec width)) (x : Nat) :
    read? (writeRun m a vs) x = if a ≤ x ∧ x < a + vs.length then vs[x - a]? else read? m x := by
  rw [writeRun, read?_append, read?_append, read?_filter (fun y => decide (y < a)),
    read?_filter (fun y => decide (a + vs.length ≤ y)), read?_run]
  rcases Nat.lt_or_ge x a with h | h
  · cases read? m x <;> simp [h, show ¬ a ≤ x by omega, show ¬ a + vs.length ≤ x by omega]
  · rcases Nat.lt_or_ge x (a + vs.length) with h' | h'
    · simp [h, h', Nat.not_lt.2 h, show ¬ a + vs.length ≤ x by omega]
    · simp [h, h', Nat.not_lt.2 h, Nat.not_lt.2 h', List.getElem?_eq_none (show vs.length ≤ x - a by omega)]

/-- The read-after-write law of one cell. -/
theorem read?_write (m : Memory width) (a : Nat) (v : BitVec width) (x : Nat) :
    read? (write m a v) x = if x = a then some v else read? m x := by
  rw [write, read?_writeRun]
  by_cases h : x = a
  · simp [h]
  · have : ¬ (a ≤ x ∧ x < a + [v].length) := by simp; omega
    simp only [this, h, if_false]

/-! ## The canonical form -/

@[simp] theorem keys_run (a : Nat) (vs : List (BitVec width)) :
    (run a vs).map Prod.fst = List.range' a vs.length := by
  induction vs generalizing a with
  | nil => rfl
  | cons v vs ih => simp [run, ih, List.range'_succ]

theorem keys_filter (q : Nat → Bool) (m : Memory width) :
    (m.filter fun p => q p.1).map Prod.fst = (m.map Prod.fst).filter q := by
  induction m with
  | nil => rfl
  | cons p m ih => by_cases h : q p.1 <;> simp [h, ih]

/-- The addresses listed after writing a run: those below it, the run, those above it. -/
theorem keys_writeRun (m : Memory width) (a : Nat) (vs : List (BitVec width)) :
    (writeRun m a vs).map Prod.fst =
      (m.map Prod.fst).filter (fun y => decide (y < a)) ++ List.range' a vs.length ++
        (m.map Prod.fst).filter (fun y => decide (a + vs.length ≤ y)) := by
  rw [writeRun, List.map_append, List.map_append, keys_run, keys_filter (fun y => decide (y < a)),
    keys_filter (fun y => decide (a + vs.length ≤ y))]

theorem wf_nil : wf ([] : Memory width) := List.Pairwise.nil

theorem wf_run (a : Nat) (vs : List (BitVec width)) : wf (run a vs) := by
  simpa [wf] using List.pairwise_lt_range'

/-- Writing a run keeps the canonical form. -/
theorem wf_writeRun {m : Memory width} (h : wf m) (a : Nat) (vs : List (BitVec width)) : wf (writeRun m a vs) := by
  rw [wf, keys_writeRun, List.pairwise_append, List.pairwise_append]
  refine ⟨⟨h.filter _, List.pairwise_lt_range', ?_⟩, h.filter _, ?_⟩
  · intro x hx y hy
    simp [List.mem_range'] at hx hy
    omega
  · intro x hx y hy
    simp [List.mem_range'] at hx hy
    omega

/-- Writing a cell keeps the canonical form. -/
theorem wf_write {m : Memory width} (h : wf m) (a : Nat) (v : BitVec width) : wf (write m a v) :=
  wf_writeRun h a [v]

/-- Every address listed after writing a run was listed before or lies in the run. -/
theorem mem_keys_writeRun {m : Memory width} {a : Nat} {vs : List (BitVec width)} {x : Nat}
    (h : x ∈ (writeRun m a vs).map Prod.fst) : x ∈ m.map Prod.fst ∨ (a ≤ x ∧ x < a + vs.length) := by
  rw [keys_writeRun, List.mem_append, List.mem_append, List.mem_filter, List.mem_filter, List.mem_range'_1] at h
  tauto

theorem filter_range_lt {a n : Nat} (h : a ≤ n) :
    (List.range n).filter (fun y => decide (y < a)) = List.range a := by
  obtain ⟨k, rfl⟩ := Nat.exists_eq_add_of_le h
  rw [List.range_add, List.filter_append, List.filter_eq_self.2 (by simp), List.filter_eq_nil_iff.2 (by simp),
    List.append_nil]

theorem filter_range_ge {a n : Nat} (h : a ≤ n) :
    (List.range n).filter (fun y => decide (a ≤ y)) = List.range' a (n - a) := by
  obtain ⟨k, rfl⟩ := Nat.exists_eq_add_of_le h
  rw [List.range_add, List.filter_append, List.filter_eq_nil_iff.2 (by simp), List.filter_eq_self.2 (by simp),
    List.nil_append, Nat.add_sub_cancel_left, ← List.range'_eq_map_range]

/-- Writing a run inside the first `n` cells, all of them listed, leaves exactly those listed. -/
theorem keys_writeRun_range {m : Memory width} {n : Nat} (hm : m.map Prod.fst = List.range n) {a : Nat}
    {vs : List (BitVec width)} (h : a + vs.length ≤ n) : (writeRun m a vs).map Prod.fst = List.range n := by
  have h1 : List.range' 0 a ++ List.range' a vs.length = List.range' 0 (a + vs.length) := by
    simpa using List.range'_append_1 (s := 0) (m := a) (n := vs.length)
  have h2 : List.range' 0 (a + vs.length) ++ List.range' (a + vs.length) (n - (a + vs.length)) = List.range' 0 n := by
    have := List.range'_append_1 (s := 0) (m := a + vs.length) (n := n - (a + vs.length))
    rwa [Nat.zero_add, Nat.add_sub_cancel' h] at this
  rw [keys_writeRun, hm, filter_range_lt (by omega), filter_range_ge h, List.range_eq_range', List.range_eq_range',
    h1, h2]

theorem keys_write_range {m : Memory width} {n : Nat} (hm : m.map Prod.fst = List.range n) {a : Nat} (h : a < n)
    (v : BitVec width) : (write m a v).map Prod.fst = List.range n :=
  keys_writeRun_range hm h

end Sys2Proof.Machine.Memory
end

