-- ==== Sys2Proof/Laws/State.lean ====
section
/-! SUPPORT. What each update of the state leaves in each field, and in the views over the fields: one rewriting lemma
for each, so that no later proof unfolds an update. -/

namespace Sys2Proof.Machine

namespace State

variable (s : State)

/-! ## setCtx -/

@[simp] theorem setCtx_cfg (c : CtxNum) (x : Context) : (s.setCtx c x).cfg = s.cfg := rfl
@[simp] theorem setCtx_vbuf (c : CtxNum) (x : Context) : (s.setCtx c x).vbuf = s.vbuf := rfl
@[simp] theorem setCtx_wbuf (c : CtxNum) (x : Context) : (s.setCtx c x).wbuf = s.wbuf := rfl
@[simp] theorem setCtx_cb (c : CtxNum) (x : Context) : (s.setCtx c x).cb = s.cb := rfl
@[simp] theorem setCtx_fault (c : CtxNum) (x : Context) : (s.setCtx c x).fault = s.fault := rfl
@[simp] theorem setCtx_ecode (c : CtxNum) (x : Context) : (s.setCtx c x).ecode = s.ecode := rfl
@[simp] theorem setCtx_einfo0 (c : CtxNum) (x : Context) : (s.setCtx c x).einfo0 = s.einfo0 := rfl
@[simp] theorem setCtx_einfo1 (c : CtxNum) (x : Context) : (s.setCtx c x).einfo1 = s.einfo1 := rfl
@[simp] theorem setCtx_inputs (c : CtxNum) (x : Context) : (s.setCtx c x).inputs = s.inputs := rfl
@[simp] theorem setCtx_responses (c : CtxNum) (x : Context) : (s.setCtx c x).responses = s.responses := rfl
@[simp] theorem setCtx_resets (c : CtxNum) (x : Context) : (s.setCtx c x).resets = s.resets := rfl
@[simp] theorem setCtx_readValue (c : CtxNum) (x : Context) (n : Nat) : (s.setCtx c x).readValue n = s.readValue n := rfl
@[simp] theorem setCtx_readStaged (c : CtxNum) (x : Context) (n : Nat) : (s.setCtx c x).readStaged n = s.readStaged n := rfl

/-! ## writeWord -/

@[simp] theorem writeWord_cfg (c : CtxNum) (w : Nat) (v : Word) : (s.writeWord c w v).cfg = s.cfg := rfl
@[simp] theorem writeWord_vbuf (c : CtxNum) (w : Nat) (v : Word) : (s.writeWord c w v).vbuf = s.vbuf := rfl
@[simp] theorem writeWord_wbuf (c : CtxNum) (w : Nat) (v : Word) : (s.writeWord c w v).wbuf = s.wbuf := rfl
@[simp] theorem writeWord_cb (c : CtxNum) (w : Nat) (v : Word) : (s.writeWord c w v).cb = s.cb := rfl
@[simp] theorem writeWord_fault (c : CtxNum) (w : Nat) (v : Word) : (s.writeWord c w v).fault = s.fault := rfl
@[simp] theorem writeWord_ecode (c : CtxNum) (w : Nat) (v : Word) : (s.writeWord c w v).ecode = s.ecode := rfl
@[simp] theorem writeWord_einfo0 (c : CtxNum) (w : Nat) (v : Word) : (s.writeWord c w v).einfo0 = s.einfo0 := rfl
@[simp] theorem writeWord_einfo1 (c : CtxNum) (w : Nat) (v : Word) : (s.writeWord c w v).einfo1 = s.einfo1 := rfl
@[simp] theorem writeWord_inputs (c : CtxNum) (w : Nat) (v : Word) : (s.writeWord c w v).inputs = s.inputs := rfl
@[simp] theorem writeWord_responses (c : CtxNum) (w : Nat) (v : Word) : (s.writeWord c w v).responses = s.responses := rfl
@[simp] theorem writeWord_resets (c : CtxNum) (w : Nat) (v : Word) : (s.writeWord c w v).resets = s.resets := rfl
@[simp] theorem writeWord_readValue (c : CtxNum) (w : Nat) (v : Word) (n : Nat) : (s.writeWord c w v).readValue n = s.readValue n := rfl
@[simp] theorem writeWord_readStaged (c : CtxNum) (w : Nat) (v : Word) (n : Nat) : (s.writeWord c w v).readStaged n = s.readStaged n := rfl

/-! ## build -/

@[simp] theorem build_cfg (c : CtxNum) (sh : Shape) (ws : List Word) : (s.build c sh ws).cfg = s.cfg := rfl
@[simp] theorem build_vbuf (c : CtxNum) (sh : Shape) (ws : List Word) : (s.build c sh ws).vbuf = s.vbuf := rfl
@[simp] theorem build_wbuf (c : CtxNum) (sh : Shape) (ws : List Word) : (s.build c sh ws).wbuf = s.wbuf := rfl
@[simp] theorem build_cb (c : CtxNum) (sh : Shape) (ws : List Word) : (s.build c sh ws).cb = s.cb := rfl
@[simp] theorem build_fault (c : CtxNum) (sh : Shape) (ws : List Word) : (s.build c sh ws).fault = s.fault := rfl
@[simp] theorem build_ecode (c : CtxNum) (sh : Shape) (ws : List Word) : (s.build c sh ws).ecode = s.ecode := rfl
@[simp] theorem build_einfo0 (c : CtxNum) (sh : Shape) (ws : List Word) : (s.build c sh ws).einfo0 = s.einfo0 := rfl
@[simp] theorem build_einfo1 (c : CtxNum) (sh : Shape) (ws : List Word) : (s.build c sh ws).einfo1 = s.einfo1 := rfl
@[simp] theorem build_inputs (c : CtxNum) (sh : Shape) (ws : List Word) : (s.build c sh ws).inputs = s.inputs := rfl
@[simp] theorem build_responses (c : CtxNum) (sh : Shape) (ws : List Word) : (s.build c sh ws).responses = s.responses := rfl
@[simp] theorem build_resets (c : CtxNum) (sh : Shape) (ws : List Word) : (s.build c sh ws).resets = s.resets := rfl
@[simp] theorem build_readValue (c : CtxNum) (sh : Shape) (ws : List Word) (n : Nat) : (s.build c sh ws).readValue n = s.readValue n := rfl
@[simp] theorem build_readStaged (c : CtxNum) (sh : Shape) (ws : List Word) (n : Nat) : (s.build c sh ws).readStaged n = s.readStaged n := rfl

/-! ## writeSlot -/

@[simp] theorem writeSlot_cfg (c : CtxNum) (i v : Value) : (s.writeSlot c i v).cfg = s.cfg := rfl
@[simp] theorem writeSlot_vbuf (c : CtxNum) (i v : Value) : (s.writeSlot c i v).vbuf = s.vbuf := rfl
@[simp] theorem writeSlot_wbuf (c : CtxNum) (i v : Value) : (s.writeSlot c i v).wbuf = s.wbuf := rfl
@[simp] theorem writeSlot_cb (c : CtxNum) (i v : Value) : (s.writeSlot c i v).cb = s.cb := rfl
@[simp] theorem writeSlot_fault (c : CtxNum) (i v : Value) : (s.writeSlot c i v).fault = s.fault := rfl
@[simp] theorem writeSlot_ecode (c : CtxNum) (i v : Value) : (s.writeSlot c i v).ecode = s.ecode := rfl
@[simp] theorem writeSlot_einfo0 (c : CtxNum) (i v : Value) : (s.writeSlot c i v).einfo0 = s.einfo0 := rfl
@[simp] theorem writeSlot_einfo1 (c : CtxNum) (i v : Value) : (s.writeSlot c i v).einfo1 = s.einfo1 := rfl
@[simp] theorem writeSlot_inputs (c : CtxNum) (i v : Value) : (s.writeSlot c i v).inputs = s.inputs := rfl
@[simp] theorem writeSlot_responses (c : CtxNum) (i v : Value) : (s.writeSlot c i v).responses = s.responses := rfl
@[simp] theorem writeSlot_resets (c : CtxNum) (i v : Value) : (s.writeSlot c i v).resets = s.resets := rfl
@[simp] theorem writeSlot_readValue (c : CtxNum) (i v : Value) (n : Nat) : (s.writeSlot c i v).readValue n = s.readValue n := rfl
@[simp] theorem writeSlot_readStaged (c : CtxNum) (i v : Value) (n : Nat) : (s.writeSlot c i v).readStaged n = s.readStaged n := rfl

/-! ## writeValues -/

@[simp] theorem writeValues_cfg (a : Nat) (vs : List Value) : (s.writeValues a vs).cfg = s.cfg := rfl
@[simp] theorem writeValues_ctxs (a : Nat) (vs : List Value) : (s.writeValues a vs).ctxs = s.ctxs := rfl
@[simp] theorem writeValues_vbuf (a : Nat) (vs : List Value) : (s.writeValues a vs).vbuf = Memory.writeRun s.vbuf a vs := rfl
@[simp] theorem writeValues_wbuf (a : Nat) (vs : List Value) : (s.writeValues a vs).wbuf = s.wbuf := rfl
@[simp] theorem writeValues_cb (a : Nat) (vs : List Value) : (s.writeValues a vs).cb = s.cb := rfl
@[simp] theorem writeValues_fault (a : Nat) (vs : List Value) : (s.writeValues a vs).fault = s.fault := rfl
@[simp] theorem writeValues_ecode (a : Nat) (vs : List Value) : (s.writeValues a vs).ecode = s.ecode := rfl
@[simp] theorem writeValues_einfo0 (a : Nat) (vs : List Value) : (s.writeValues a vs).einfo0 = s.einfo0 := rfl
@[simp] theorem writeValues_einfo1 (a : Nat) (vs : List Value) : (s.writeValues a vs).einfo1 = s.einfo1 := rfl
@[simp] theorem writeValues_inputs (a : Nat) (vs : List Value) : (s.writeValues a vs).inputs = s.inputs := rfl
@[simp] theorem writeValues_responses (a : Nat) (vs : List Value) : (s.writeValues a vs).responses = s.responses := rfl
@[simp] theorem writeValues_resets (a : Nat) (vs : List Value) : (s.writeValues a vs).resets = s.resets := rfl
@[simp] theorem writeValues_ctx (a : Nat) (vs : List Value) (e : CtxNum) : (s.writeValues a vs).ctx e = s.ctx e := rfl
@[simp] theorem writeValues_readWord (a : Nat) (vs : List Value) (e : CtxNum) (n : Nat) : (s.writeValues a vs).readWord e n = s.readWord e n := rfl
@[simp] theorem writeValues_readWords (a : Nat) (vs : List Value) (e : CtxNum) (n : Nat) : (s.writeValues a vs).readWords e n = s.readWords e n := rfl
@[simp] theorem writeValues_readStaged (a : Nat) (vs : List Value) (n : Nat) : (s.writeValues a vs).readStaged n = s.readStaged n := rfl

/-! ## writeStaged -/

@[simp] theorem writeStaged_cfg (a : Nat) (ws : List Word) : (s.writeStaged a ws).cfg = s.cfg := rfl
@[simp] theorem writeStaged_ctxs (a : Nat) (ws : List Word) : (s.writeStaged a ws).ctxs = s.ctxs := rfl
@[simp] theorem writeStaged_vbuf (a : Nat) (ws : List Word) : (s.writeStaged a ws).vbuf = s.vbuf := rfl
@[simp] theorem writeStaged_wbuf (a : Nat) (ws : List Word) : (s.writeStaged a ws).wbuf = Memory.writeRun s.wbuf a ws := rfl
@[simp] theorem writeStaged_cb (a : Nat) (ws : List Word) : (s.writeStaged a ws).cb = s.cb := rfl
@[simp] theorem writeStaged_fault (a : Nat) (ws : List Word) : (s.writeStaged a ws).fault = s.fault := rfl
@[simp] theorem writeStaged_ecode (a : Nat) (ws : List Word) : (s.writeStaged a ws).ecode = s.ecode := rfl
@[simp] theorem writeStaged_einfo0 (a : Nat) (ws : List Word) : (s.writeStaged a ws).einfo0 = s.einfo0 := rfl
@[simp] theorem writeStaged_einfo1 (a : Nat) (ws : List Word) : (s.writeStaged a ws).einfo1 = s.einfo1 := rfl
@[simp] theorem writeStaged_inputs (a : Nat) (ws : List Word) : (s.writeStaged a ws).inputs = s.inputs := rfl
@[simp] theorem writeStaged_responses (a : Nat) (ws : List Word) : (s.writeStaged a ws).responses = s.responses := rfl
@[simp] theorem writeStaged_resets (a : Nat) (ws : List Word) : (s.writeStaged a ws).resets = s.resets := rfl
@[simp] theorem writeStaged_ctx (a : Nat) (ws : List Word) (e : CtxNum) : (s.writeStaged a ws).ctx e = s.ctx e := rfl
@[simp] theorem writeStaged_readWord (a : Nat) (ws : List Word) (e : CtxNum) (n : Nat) : (s.writeStaged a ws).readWord e n = s.readWord e n := rfl
@[simp] theorem writeStaged_readWords (a : Nat) (ws : List Word) (e : CtxNum) (n : Nat) : (s.writeStaged a ws).readWords e n = s.readWords e n := rfl
@[simp] theorem writeStaged_readValue (a : Nat) (ws : List Word) (n : Nat) : (s.writeStaged a ws).readValue n = s.readValue n := rfl

/-! ## emit -/

@[simp] theorem emit_cfg (beats : List Value) : (s.emit beats).cfg = s.cfg := rfl
@[simp] theorem emit_ctxs (beats : List Value) : (s.emit beats).ctxs = s.ctxs := rfl
@[simp] theorem emit_vbuf (beats : List Value) : (s.emit beats).vbuf = s.vbuf := rfl
@[simp] theorem emit_wbuf (beats : List Value) : (s.emit beats).wbuf = s.wbuf := rfl
@[simp] theorem emit_cb (beats : List Value) : (s.emit beats).cb = s.cb ++ beats := rfl
@[simp] theorem emit_fault (beats : List Value) : (s.emit beats).fault = s.fault := rfl
@[simp] theorem emit_ecode (beats : List Value) : (s.emit beats).ecode = s.ecode := rfl
@[simp] theorem emit_einfo0 (beats : List Value) : (s.emit beats).einfo0 = s.einfo0 := rfl
@[simp] theorem emit_einfo1 (beats : List Value) : (s.emit beats).einfo1 = s.einfo1 := rfl
@[simp] theorem emit_inputs (beats : List Value) : (s.emit beats).inputs = s.inputs := rfl
@[simp] theorem emit_responses (beats : List Value) : (s.emit beats).responses = s.responses := rfl
@[simp] theorem emit_resets (beats : List Value) : (s.emit beats).resets = s.resets := rfl
@[simp] theorem emit_ctx (beats : List Value) (e : CtxNum) : (s.emit beats).ctx e = s.ctx e := rfl
@[simp] theorem emit_readWord (beats : List Value) (e : CtxNum) (n : Nat) : (s.emit beats).readWord e n = s.readWord e n := rfl
@[simp] theorem emit_readWords (beats : List Value) (e : CtxNum) (n : Nat) : (s.emit beats).readWords e n = s.readWords e n := rfl
@[simp] theorem emit_readValue (beats : List Value) (n : Nat) : (s.emit beats).readValue n = s.readValue n := rfl
@[simp] theorem emit_readStaged (beats : List Value) (n : Nat) : (s.emit beats).readStaged n = s.readStaged n := rfl

/-! ## answer -/

@[simp] theorem answer_cfg (r : Response) : (s.answer r).cfg = s.cfg := rfl
@[simp] theorem answer_ctxs (r : Response) : (s.answer r).ctxs = s.ctxs := rfl
@[simp] theorem answer_vbuf (r : Response) : (s.answer r).vbuf = s.vbuf := rfl
@[simp] theorem answer_wbuf (r : Response) : (s.answer r).wbuf = s.wbuf := rfl
@[simp] theorem answer_cb (r : Response) : (s.answer r).cb = s.cb := rfl
@[simp] theorem answer_fault (r : Response) : (s.answer r).fault = s.fault := rfl
@[simp] theorem answer_ecode (r : Response) : (s.answer r).ecode = s.ecode := rfl
@[simp] theorem answer_einfo0 (r : Response) : (s.answer r).einfo0 = s.einfo0 := rfl
@[simp] theorem answer_einfo1 (r : Response) : (s.answer r).einfo1 = s.einfo1 := rfl
@[simp] theorem answer_inputs (r : Response) : (s.answer r).inputs = s.inputs := rfl
@[simp] theorem answer_responses (r : Response) : (s.answer r).responses = s.responses ++ [r] := rfl
@[simp] theorem answer_resets (r : Response) : (s.answer r).resets = s.resets := rfl
@[simp] theorem answer_ctx (r : Response) (e : CtxNum) : (s.answer r).ctx e = s.ctx e := rfl
@[simp] theorem answer_readWord (r : Response) (e : CtxNum) (n : Nat) : (s.answer r).readWord e n = s.readWord e n := rfl
@[simp] theorem answer_readWords (r : Response) (e : CtxNum) (n : Nat) : (s.answer r).readWords e n = s.readWords e n := rfl
@[simp] theorem answer_readValue (r : Response) (n : Nat) : (s.answer r).readValue n = s.readValue n := rfl
@[simp] theorem answer_readStaged (r : Response) (n : Nat) : (s.answer r).readStaged n = s.readStaged n := rfl

/-! ## respond -/

@[simp] theorem respond_cfg (d : BitVec 64) : (s.respond d).cfg = s.cfg := rfl
@[simp] theorem respond_ctxs (d : BitVec 64) : (s.respond d).ctxs = s.ctxs := rfl
@[simp] theorem respond_vbuf (d : BitVec 64) : (s.respond d).vbuf = s.vbuf := rfl
@[simp] theorem respond_wbuf (d : BitVec 64) : (s.respond d).wbuf = s.wbuf := rfl
@[simp] theorem respond_cb (d : BitVec 64) : (s.respond d).cb = s.cb := rfl
@[simp] theorem respond_fault (d : BitVec 64) : (s.respond d).fault = s.fault := rfl
@[simp] theorem respond_ecode (d : BitVec 64) : (s.respond d).ecode = s.ecode := rfl
@[simp] theorem respond_einfo0 (d : BitVec 64) : (s.respond d).einfo0 = s.einfo0 := rfl
@[simp] theorem respond_einfo1 (d : BitVec 64) : (s.respond d).einfo1 = s.einfo1 := rfl
@[simp] theorem respond_inputs (d : BitVec 64) : (s.respond d).inputs = s.inputs := rfl
@[simp] theorem respond_responses (d : BitVec 64) : (s.respond d).responses = s.responses ++ [{ status := okStatus, data := d }] := rfl
@[simp] theorem respond_resets (d : BitVec 64) : (s.respond d).resets = s.resets := rfl
@[simp] theorem respond_ctx (d : BitVec 64) (e : CtxNum) : (s.respond d).ctx e = s.ctx e := rfl
@[simp] theorem respond_readWord (d : BitVec 64) (e : CtxNum) (n : Nat) : (s.respond d).readWord e n = s.readWord e n := rfl
@[simp] theorem respond_readWords (d : BitVec 64) (e : CtxNum) (n : Nat) : (s.respond d).readWords e n = s.readWords e n := rfl
@[simp] theorem respond_readValue (d : BitVec 64) (n : Nat) : (s.respond d).readValue n = s.readValue n := rfl
@[simp] theorem respond_readStaged (d : BitVec 64) (n : Nat) : (s.respond d).readStaged n = s.readStaged n := rfl

/-! ## recordFault -/

@[simp] theorem recordFault_cfg (x : Cause) (i j : Nat) : (s.recordFault x i j).cfg = s.cfg := rfl
@[simp] theorem recordFault_ctxs (x : Cause) (i j : Nat) : (s.recordFault x i j).ctxs = s.ctxs := rfl
@[simp] theorem recordFault_vbuf (x : Cause) (i j : Nat) : (s.recordFault x i j).vbuf = s.vbuf := rfl
@[simp] theorem recordFault_wbuf (x : Cause) (i j : Nat) : (s.recordFault x i j).wbuf = s.wbuf := rfl
@[simp] theorem recordFault_cb (x : Cause) (i j : Nat) : (s.recordFault x i j).cb = s.cb := rfl
@[simp] theorem recordFault_fault (x : Cause) (i j : Nat) : (s.recordFault x i j).fault = true := rfl
@[simp] theorem recordFault_ecode (x : Cause) (i j : Nat) : (s.recordFault x i j).ecode = x.code := rfl
@[simp] theorem recordFault_einfo0 (x : Cause) (i j : Nat) : (s.recordFault x i j).einfo0 = BitVec.ofNat 32 i := rfl
@[simp] theorem recordFault_einfo1 (x : Cause) (i j : Nat) : (s.recordFault x i j).einfo1 = BitVec.ofNat 32 j := rfl
@[simp] theorem recordFault_inputs (x : Cause) (i j : Nat) : (s.recordFault x i j).inputs = s.inputs := rfl
@[simp] theorem recordFault_responses (x : Cause) (i j : Nat) : (s.recordFault x i j).responses = s.responses := rfl
@[simp] theorem recordFault_resets (x : Cause) (i j : Nat) : (s.recordFault x i j).resets = s.resets := rfl
@[simp] theorem recordFault_ctx (x : Cause) (i j : Nat) (e : CtxNum) : (s.recordFault x i j).ctx e = s.ctx e := rfl
@[simp] theorem recordFault_readWord (x : Cause) (i j : Nat) (e : CtxNum) (n : Nat) : (s.recordFault x i j).readWord e n = s.readWord e n := rfl
@[simp] theorem recordFault_readWords (x : Cause) (i j : Nat) (e : CtxNum) (n : Nat) : (s.recordFault x i j).readWords e n = s.readWords e n := rfl
@[simp] theorem recordFault_readValue (x : Cause) (i j : Nat) (n : Nat) : (s.recordFault x i j).readValue n = s.readValue n := rfl
@[simp] theorem recordFault_readStaged (x : Cause) (i j : Nat) (n : Nat) : (s.recordFault x i j).readStaged n = s.readStaged n := rfl

/-! ## raise -/

@[simp] theorem raise_cfg (r : Raise) : (s.raise r).cfg = s.cfg := rfl
@[simp] theorem raise_ctxs (r : Raise) : (s.raise r).ctxs = s.ctxs := rfl
@[simp] theorem raise_vbuf (r : Raise) : (s.raise r).vbuf = s.vbuf := rfl
@[simp] theorem raise_wbuf (r : Raise) : (s.raise r).wbuf = s.wbuf := rfl
@[simp] theorem raise_cb (r : Raise) : (s.raise r).cb = s.cb := rfl
@[simp] theorem raise_fault (r : Raise) : (s.raise r).fault = true := rfl
@[simp] theorem raise_ecode (r : Raise) : (s.raise r).ecode = r.cause.code := rfl
@[simp] theorem raise_einfo0 (r : Raise) : (s.raise r).einfo0 = BitVec.ofNat 32 r.info0 := rfl
@[simp] theorem raise_einfo1 (r : Raise) : (s.raise r).einfo1 = BitVec.ofNat 32 r.info1 := rfl
@[simp] theorem raise_inputs (r : Raise) : (s.raise r).inputs = s.inputs := rfl
@[simp] theorem raise_responses (r : Raise) : (s.raise r).responses = s.responses ++ [{ status := r.cause.code, data := 0 }] := rfl
@[simp] theorem raise_resets (r : Raise) : (s.raise r).resets = s.resets := rfl
@[simp] theorem raise_ctx (r : Raise) (e : CtxNum) : (s.raise r).ctx e = s.ctx e := rfl
@[simp] theorem raise_readWord (r : Raise) (e : CtxNum) (n : Nat) : (s.raise r).readWord e n = s.readWord e n := rfl
@[simp] theorem raise_readWords (r : Raise) (e : CtxNum) (n : Nat) : (s.raise r).readWords e n = s.readWords e n := rfl
@[simp] theorem raise_readValue (r : Raise) (n : Nat) : (s.raise r).readValue n = s.readValue n := rfl
@[simp] theorem raise_readStaged (r : Raise) (n : Nat) : (s.raise r).readStaged n = s.readStaged n := rfl

/-! ## The contexts after an update of one of them (R20) -/

theorem ctx_setCtx (c d : CtxNum) (x : Context) : (s.setCtx c x).ctx d = if d = c then x else s.ctx d := by
  unfold ctx setCtx
  by_cases h : d = c
  · subst h; simp
  · have : c.toNat ≠ d.toNat := fun e => h (BitVec.eq_of_toNat_eq e.symm)
    simp [h, this]

@[simp] theorem ctx_setCtx_self (c : CtxNum) (x : Context) : (s.setCtx c x).ctx c = x := by simp [ctx_setCtx]

theorem ctx_setCtx_of_ne {c d : CtxNum} (h : d ≠ c) (x : Context) : (s.setCtx c x).ctx d = s.ctx d := by
  simp [ctx_setCtx, h]

@[simp] theorem ctx_build_self (c : CtxNum) (sh : Shape) (ws : List Word) :
    (s.build c sh ws).ctx c = { valid := true, shape := sh, words := Memory.run 0 ws } := by simp [build]

theorem ctx_build_of_ne {c d : CtxNum} (h : d ≠ c) (sh : Shape) (ws : List Word) :
    (s.build c sh ws).ctx d = s.ctx d := ctx_setCtx_of_ne s h _

@[simp] theorem ctx_writeWord_self (c : CtxNum) (w : Nat) (v : Word) :
    (s.writeWord c w v).ctx c = { s.ctx c with words := Memory.write (s.ctx c).words w v } := by simp [writeWord]

theorem ctx_writeWord_of_ne {c d : CtxNum} (h : d ≠ c) (w : Nat) (v : Word) :
    (s.writeWord c w v).ctx d = s.ctx d := ctx_setCtx_of_ne s h _

theorem ctx_writeSlot_of_ne {c d : CtxNum} (h : d ≠ c) (i v : Value) :
    (s.writeSlot c i v).ctx d = s.ctx d := ctx_writeWord_of_ne s h _ _

/-- Writing words leaves VALID and the shape of every context (R27). -/
@[simp] theorem shape_writeWord (c d : CtxNum) (w : Nat) (v : Word) :
    ((s.writeWord c w v).ctx d).shape = (s.ctx d).shape := by
  by_cases h : d = c
  · subst h; simp
  · rw [ctx_writeWord_of_ne s h]

@[simp] theorem valid_writeWord (c d : CtxNum) (w : Nat) (v : Word) :
    ((s.writeWord c w v).ctx d).valid = (s.ctx d).valid := by
  by_cases h : d = c
  · subst h; simp
  · rw [ctx_writeWord_of_ne s h]

@[simp] theorem shape_writeSlot (c d : CtxNum) (i v : Value) :
    ((s.writeSlot c i v).ctx d).shape = (s.ctx d).shape := shape_writeWord s c d _ _

@[simp] theorem valid_writeSlot (c d : CtxNum) (i v : Value) :
    ((s.writeSlot c i v).ctx d).valid = (s.ctx d).valid := valid_writeWord s c d _ _

/-- Two states with the same fields are one (used to turn an update into the record a statement writes out). -/
theorem ext_ctx {s t : State} (hcfg : s.cfg = t.cfg) (hctx : ∀ c, s.ctx c = t.ctx c) (hv : s.vbuf = t.vbuf)
    (hw : s.wbuf = t.wbuf) (hcb : s.cb = t.cb) (hf : s.fault = t.fault) (he : s.ecode = t.ecode)
    (h0 : s.einfo0 = t.einfo0) (h1 : s.einfo1 = t.einfo1) (hi : s.inputs = t.inputs)
    (hr : s.responses = t.responses) (hn : s.resets = t.resets) : s = t := by
  have hc : s.ctxs = t.ctxs := by
    ext1 i hi
    exact hctx (BitVec.ofFin ⟨i, hi⟩)
  cases s; cases t; simp_all

end State

end Sys2Proof.Machine
end

