-- ==== Sys2Proof/Laws/Ops.lean ====
section
/-! SUPPORT. One lemma for each shared operation over cells, contexts and faults: everything it can do. -/

namespace Sys2Proof.Machine

/-! ## Checks and fault entry (R200, R201, R202) -/

@[simp] theorem firstRaise_nil : firstRaise [] = none := rfl

theorem firstRaise_cons (p : Bool) (r : Raise) (rest : List (Bool × Raise)) :
    firstRaise ((p, r) :: rest) = if p then some r else firstRaise rest := rfl

/-- No fault is raised exactly when no check applies. -/
theorem firstRaise_eq_none (checks : List (Bool × Raise)) :
    firstRaise checks = none ↔ ∀ c ∈ checks, c.1 = false := by
  induction checks with
  | nil => simp
  | cons c rest ih =>
    obtain ⟨p, r⟩ := c
    cases p <;> simp [firstRaise_cons, ih]

/-- A fault that is raised is that of a check that applies, and no check before it applies. -/
theorem firstRaise_eq_some {checks : List (Bool × Raise)} {r : Raise} (h : firstRaise checks = some r) :
    ∃ before after, checks = before ++ (true, r) :: after ∧ ∀ c ∈ before, c.1 = false := by
  induction checks with
  | nil => simp at h
  | cons c rest ih =>
    obtain ⟨p, x⟩ := c
    rw [firstRaise_cons] at h
    cases p with
    | true => exact ⟨[], rest, by simp_all, by simp⟩
    | false =>
      obtain ⟨before, after, rfl, hb⟩ := ih (by simpa using h)
      exact ⟨(false, x) :: before, after, rfl, by simpa using hb⟩

theorem finish_of_none {checks : List (Bool × Raise)} (h : firstRaise checks = none) (s : State) (f : Unit → State) :
    finish checks s f = .next (f ()) := by simp [finish, h]

theorem finish_of_some {checks : List (Bool × Raise)} {r : Raise} (h : firstRaise checks = some r) (s : State)
    (f : Unit → State) : finish checks s f = .next (s.raise r) := by simp [finish, h]

/-- How a command ends: with the first fault that applies, in the state it found, or with its effect. -/
theorem finish_cases {checks : List (Bool × Raise)} {s t : State} {f : Unit → State}
    (h : finish checks s f = .next t) :
    (∃ r, firstRaise checks = some r ∧ t = s.raise r) ∨ (firstRaise checks = none ∧ t = f ()) := by
  unfold finish at h
  split at h <;> rename_i e <;> cases h
  · exact .inl ⟨_, e, rfl⟩
  · exact .inr ⟨e, rfl⟩

/-- Fault entry as a record (R201). -/
theorem State.raise_eq (s : State) (r : Raise) :
    s.raise r = { s with fault := true, ecode := r.cause.code, einfo0 := BitVec.ofNat 32 r.info0,
                         einfo1 := BitVec.ofNat 32 r.info1,
                         responses := s.responses ++ [{ status := r.cause.code, data := 0 }] } := rfl

theorem Cause.code_ne_zero (x : Cause) : x.code ≠ okStatus := by cases x <;> decide

theorem Cause.code_range (x : Cause) : 1 ≤ x.code.toNat ∧ x.code.toNat ≤ 6 := by cases x <;> decide

/-! ## The shared checks -/

@[simp] theorem illegalCheck_fst (i : Instr) (s : State) : (illegalCheck i s).1 = !i.wf s.cfg := rfl
@[simp] theorem instanceCheck_fst (c : CtxNum) (s : State) : (instanceCheck c s).1 = !(s.ctx c).valid := rfl
@[simp] theorem indexCheck_fst (c : CtxNum) (i : Value) (s : State) :
    (indexCheck c i s).1 = decide ((s.ctx c).shape.size.toNat ≤ i.toNat) := rfl
@[simp] theorem capacityCheck_fst (m n : Nat) : (capacityCheck m n).1 = decide (n < m) := rfl

/-! ## Cells -/

/-- A word of a context after one of its words is written (R61, R63). -/
theorem State.readWord_writeWord (s : State) (c d : CtxNum) (w x : Nat) (v : Word) :
    (s.writeWord c w v).readWord d x = if d = c ∧ x = w then v else s.readWord d x := by
  unfold State.readWord
  by_cases h : d = c
  · subst h
    by_cases hx : x = w <;> simp [Memory.read?_write, hx]
  · simp [State.ctx_writeWord_of_ne s h, h]

/-- The words of a context just built are those it was built from. -/
theorem State.readWord_build_self (s : State) (c : CtxNum) (sh : Shape) (ws : List Word) {w : Nat}
    (h : w < ws.length) : (s.build c sh ws).readWord c w = ws[w] := by
  simp [State.readWord, Memory.read?_run, List.getElem?_eq_getElem h]

theorem State.readWord_build_of_ne (s : State) {c d : CtxNum} (h : d ≠ c) (sh : Shape) (ws : List Word) (w : Nat) :
    (s.build c sh ws).readWord d w = s.readWord d w := by
  simp [State.readWord, State.ctx_build_of_ne s h]

/-- VBUF after a run of its cells is written. -/
theorem State.readValue_writeValues (s : State) (a : Nat) (vs : List Value) (x : Nat) :
    (s.writeValues a vs).readValue x =
      if h : a ≤ x ∧ x < a + vs.length then vs[x - a]'(by omega) else s.readValue x := by
  unfold State.readValue
  by_cases h : a ≤ x ∧ x < a + vs.length
  · simp [Memory.read?_writeRun, h, List.getElem?_eq_getElem (show x - a < vs.length by omega)]
  · simp [Memory.read?_writeRun, h]

/-- WBUF after a run of its cells is written. -/
theorem State.readStaged_writeStaged (s : State) (a : Nat) (ws : List Word) (x : Nat) :
    (s.writeStaged a ws).readStaged x =
      if h : a ≤ x ∧ x < a + ws.length then ws[x - a]'(by omega) else s.readStaged x := by
  unfold State.readStaged
  by_cases h : a ≤ x ∧ x < a + ws.length
  · simp [Memory.read?_writeRun, h, List.getElem?_eq_getElem (show x - a < ws.length by omega)]
  · simp [Memory.read?_writeRun, h]

@[simp] theorem State.length_readWords (s : State) (c : CtxNum) (n : Nat) : (s.readWords c n).length = n := by
  simp [State.readWords]

theorem State.getElem_readWords (s : State) (c : CtxNum) (n w : Nat) (h : w < (s.readWords c n).length) :
    (s.readWords c n)[w] = s.readWord c w := by simp [State.readWords]

end Sys2Proof.Machine
end

