-- ==== Sys2Proof/Laws/Exec.lean ====
section
/-! SUPPORT. What a command can do, said once: the effect of each operation when no check applies, and the inversion of
`exec`: a command ends with a fault, in the state it found, or with that effect. -/

namespace Sys2Proof.Machine

/-- The checks of a command, in the order of R202. -/
def checksOf (i : Instr) (s : State) : List (Bool × Raise) :=
  match i with
  | .new _ bits size =>
    [illegalCheck i s, widthCheck bits, capacityCheck (shapeOf bits.toNat size.toNat).nwords.toNat s.cfg.wordsCap]
  | .fromValues _ bits size =>
    [illegalCheck i s, widthCheck bits, capacityCheck (shapeOf bits.toNat size.toNat).nwords.toNat s.cfg.wordsCap,
      capacityCheck size.toNat s.cfg.vbufLen]
  | .fromWords _ bits size wlen =>
    [illegalCheck i s, widthCheck bits, lengthCheck (shapeOf bits.toNat size.toNat).nwords.toNat wlen.toNat,
      capacityCheck (shapeOf bits.toNat size.toNat).nwords.toNat s.cfg.wordsCap,
      capacityCheck wlen.toNat s.cfg.wbufLen]
  | .widx c index => [illegalCheck i s, instanceCheck c s, indexCheck c index s]
  | .get c index => [illegalCheck i s, instanceCheck c s, indexCheck c index s]
  | .set c index _ => [illegalCheck i s, instanceCheck c s, indexCheck c index s]
  | .getAndSet c index _ => [illegalCheck i s, instanceCheck c s, indexCheck c index s]
  | .getAll c => [illegalCheck i s, instanceCheck c s]
  | .unpack c => [illegalCheck i s, instanceCheck c s, capacityCheck (s.ctx c).shape.size.toNat s.cfg.vbufLen]
  | .rawWords c => [illegalCheck i s, instanceCheck c s, capacityCheck (s.ctx c).shape.nwords.toNat s.cfg.wbufLen]
  | .clone _ c => [illegalCheck i s, instanceCheck c s]

/-- The state an operation leaves before its response, when no check applies. -/
def effectOf (i : Instr) (s : State) : State :=
  match i with
  | .new c bits size =>
    let sh := shapeOf bits.toNat size.toNat
    s.build c sh (List.replicate sh.nwords.toNat 0)
  | .fromValues c bits size =>
    let sh := shapeOf bits.toNat size.toNat
    s.build c sh (s.packedWords sh)
  | .fromWords c bits size _ =>
    let sh := shapeOf bits.toNat size.toNat
    s.build c sh ((List.range sh.nwords.toNat).map s.readStaged)
  | .widx _ _ => s
  | .get _ _ => s
  | .set c index value => s.writeSlot c index value
  | .getAndSet c index value => s.writeSlot c index value
  | .getAll c => s.emit (emitSlots (s.ctx c).shape (s.readWords c (s.ctx c).shape.nwords.toNat) (s.ctx c).shape.size.toNat)
  | .unpack c =>
    s.writeValues 0 (unpackSlots (s.ctx c).shape (s.readWords c (s.ctx c).shape.nwords.toNat) (s.ctx c).shape.size.toNat)
  | .rawWords c => s.writeStaged 0 (s.readWords c (s.ctx c).shape.nwords.toNat)
  | .clone d c => s.copyContext d c

/-- The response data of an operation on OK (R83). -/
def dataOf (i : Instr) (s : State) : BitVec 64 :=
  match i with
  | .new _ bits size => (shapeOf bits.toNat size.toNat).nwords.setWidth 64
  | .fromValues _ bits size => (shapeOf bits.toNat size.toNat).nwords.setWidth 64
  | .fromWords _ bits size _ => (shapeOf bits.toNat size.toNat).nwords.setWidth 64
  | .widx c index => widxData ((s.ctx c).shape.wordIndex index) ((s.ctx c).shape.bitOffset index)
  | .get c index => s.slotValue c index
  | .set _ _ _ => 0
  | .getAndSet c index _ => s.slotValue c index
  | .getAll c => (s.ctx c).shape.size.setWidth 64
  | .unpack c => (s.ctx c).shape.size.setWidth 64
  | .rawWords c => (s.ctx c).shape.nwords.setWidth 64
  | .clone _ c => (s.ctx c).shape.nwords.setWidth 64

/-- Every command is: its checks, else its effect and its response. -/
theorem exec_eq (i : Instr) (s : State) :
    exec i s = finish (checksOf i s) s fun _ => (effectOf i s).respond (dataOf i s) := by
  cases i <;> rfl

/-- What a command can do: it ends with its first fault, in the state it found, or with its effect. -/
theorem exec_cases {i : Instr} {s t : State} (h : exec i s = .next t) :
    (∃ r, firstRaise (checksOf i s) = some r ∧ t = s.raise r) ∨
    (firstRaise (checksOf i s) = none ∧ t = (effectOf i s).respond (dataOf i s)) :=
  finish_cases (exec_eq i s ▸ h)

/-- Every command completes. -/
theorem exec_next (i : Instr) (s : State) : ∃ t, exec i s = .next t := by
  rw [exec_eq]
  unfold finish
  split <;> exact ⟨_, rfl⟩

theorem exec_of_none {i : Instr} {s : State} (h : firstRaise (checksOf i s) = none) :
    exec i s = .next ((effectOf i s).respond (dataOf i s)) := by rw [exec_eq, finish_of_none h]

theorem exec_of_some {i : Instr} {s : State} {r : Raise} (h : firstRaise (checksOf i s) = some r) :
    exec i s = .next (s.raise r) := by rw [exec_eq, finish_of_some h]

/-- Every operation's first check is the legality of its context numbers (R202). -/
theorem checksOf_head (i : Instr) (s : State) : ∃ rest, checksOf i s = illegalCheck i s :: rest := by
  cases i <;> exact ⟨_, rfl⟩

/-- CLONE leaves every context but the destination, and the destination when it is the source (R174). -/
theorem State.copyContext_self (s : State) (c : CtxNum) : s.copyContext c c = s := by simp [State.copyContext]

theorem State.copyContext_of_ne (s : State) {d c : CtxNum} (h : d ≠ c) :
    s.copyContext d c = s.build d (s.ctx c).shape (s.readWords c (s.ctx c).shape.nwords.toNat) := by
  simp [State.copyContext, h]

/-- An effect writes no context but the target (R20). -/
theorem effectOf_ctx_of_ne (i : Instr) (s : State) {d : CtxNum} (h : d ≠ i.target) :
    (effectOf i s).ctx d = s.ctx d := by
  cases i with
  | new c _ _ => exact State.ctx_build_of_ne s h _ _
  | fromValues c _ _ => exact State.ctx_build_of_ne s h _ _
  | fromWords c _ _ _ => exact State.ctx_build_of_ne s h _ _
  | set c _ _ => exact State.ctx_writeSlot_of_ne s h _ _
  | getAndSet c _ _ => exact State.ctx_writeSlot_of_ne s h _ _
  | clone e c =>
    by_cases hec : e = c
    · subst hec; simp [effectOf, State.copyContext_self]
    · simp only [effectOf, State.copyContext_of_ne s hec]
      exact State.ctx_build_of_ne s h _ _
  | widx _ _ | get _ _ | getAll _ | unpack _ | rawWords _ => rfl

/-- An effect leaves the responses, the fault registers, the parameters, the inputs and the count of resets (R37). -/
theorem effectOf_frame (i : Instr) (s : State) :
    (effectOf i s).responses = s.responses ∧ (effectOf i s).fault = s.fault ∧ (effectOf i s).ecode = s.ecode ∧
    (effectOf i s).einfo0 = s.einfo0 ∧ (effectOf i s).einfo1 = s.einfo1 ∧ (effectOf i s).cfg = s.cfg ∧
    (effectOf i s).inputs = s.inputs ∧ (effectOf i s).resets = s.resets := by
  cases i <;> first
    | exact ⟨rfl, rfl, rfl, rfl, rfl, rfl, rfl, rfl⟩
    | (simp only [effectOf, State.copyContext]; split <;> exact ⟨rfl, rfl, rfl, rfl, rfl, rfl, rfl, rfl⟩)

/-! ## One step -/

theorem step_nil {s : State} (h : s.inputs = []) : step s = .next s := by simp [step, h]

theorem step_command {s : State} {cw : CommandWord} {rest : List HostAction} (h : s.inputs = .command cw :: rest)
    {i : Instr} (hd : decode cw = .ok i) : step s = exec i { s with inputs := rest } := by simp [step, h, hd]

theorem step_illegal {s : State} {cw : CommandWord} {rest : List HostAction} (h : s.inputs = .command cw :: rest)
    {e : DecodeError} (hd : decode cw = .error e) :
    step s = .next (State.raise { s with inputs := rest } (illegalRaise cw)) := by
  simp [step, h, hd, illegalCommand]

/-- What a step can do: wait, run a command, write a staging cell, or reset. -/
theorem step_cases {s t : State} (h : step s = .next t) :
    (s.inputs = [] ∧ t = s) ∨
    (∃ cw rest i, s.inputs = .command cw :: rest ∧ decode cw = .ok i ∧ exec i { s with inputs := rest } = .next t) ∨
    (∃ cw rest e, s.inputs = .command cw :: rest ∧ decode cw = .error e ∧
      t = State.raise { s with inputs := rest } (illegalRaise cw)) ∨
    (∃ a v rest, s.inputs = .writeValue a v :: rest ∧ a < s.cfg.vbufLen ∧
      t = { s with inputs := rest, vbuf := Memory.write s.vbuf a v }) ∨
    (∃ a w rest, s.inputs = .writeWord a w :: rest ∧ a < s.cfg.wbufLen ∧
      t = { s with inputs := rest, wbuf := Memory.write s.wbuf a w }) ∨
    (∃ rest, s.inputs = .reset :: rest ∧
      t = { State.resetWith s.cfg (s.resets + 1) with inputs := rest, responses := s.responses }) := by
  unfold step at h
  split at h
  · rename_i e; cases h; exact .inl ⟨e, rfl⟩
  · rename_i cw rest e
    split at h <;> rename_i hd
    · exact .inr (.inl ⟨cw, rest, _, e, hd, h⟩)
    · cases h; exact .inr (.inr (.inl ⟨cw, rest, _, e, hd, rfl⟩))
  · rename_i a v rest e
    unfold hostWriteValue at h
    split at h <;> rename_i ha <;> cases h
    exact .inr (.inr (.inr (.inl ⟨a, v, rest, e, ha, rfl⟩)))
  · rename_i a w rest e
    unfold hostWriteWord at h
    split at h <;> rename_i ha <;> cases h
    exact .inr (.inr (.inr (.inr (.inl ⟨a, w, rest, e, ha, rfl⟩))))
  · rename_i rest e
    cases h
    exact .inr (.inr (.inr (.inr (.inr ⟨rest, e, rfl⟩))))

end Sys2Proof.Machine
end

