-- ==== Sys2Proof/Laws/Operands.lean ====
section
/-! SUPPORT. One lemma for each function over operands: what the indexer, the shape, the extractor, the depositor and the
runs of slots compute, in numbers or bit by bit. -/

namespace Sys2Proof.Machine

/-! ## The word-indexer -/

/-- The multiply-shift in numbers: no step of it wraps (R132, R133). -/
theorem mulShift_toNat (i mul add : BitVec 32) (shift : BitVec 3) :
    (mulShift i mul add shift).toNat = (i.toNat * mul.toNat + add.toNat) / 2 ^ 32 / 2 ^ shift.toNat := by
  have hp : i.toNat * mul.toNat ≤ (2 ^ 32 - 1) * (2 ^ 32 - 1) :=
    Nat.mul_le_mul (by have := i.isLt; omega) (by have := mul.isLt; omega)
  have ha := add.isLt
  have h1 : i.toNat * mul.toNat < 2 ^ 64 := by omega
  have h2 : i.toNat * mul.toNat + add.toNat < 2 ^ 64 := by omega
  simp only [mulShift, BitVec.toNat_ushiftRight, BitVec.toNat_add, BitVec.toNat_mul, BitVec.toNat_setWidth,
    Nat.shiftRight_eq_div_pow]
  have e1 : i.toNat % 2 ^ 64 = i.toNat := Nat.mod_eq_of_lt (by have := i.isLt; omega)
  have e2 : mul.toNat % 2 ^ 64 = mul.toNat := Nat.mod_eq_of_lt (by have := mul.isLt; omega)
  have e3 : add.toNat % 2 ^ 64 = add.toNat := Nat.mod_eq_of_lt (by omega)
  rw [e1, e2, e3, Nat.mod_eq_of_lt h1, Nat.mod_eq_of_lt h2]

/-- The row for a power of two (R135 (b)). -/
theorem magicFor_two_pow {k : Nat} (h : 1 ≤ k) :
    magicFor (2 ^ k) = { mul := 0x80000000#32, add := 0, shift := BitVec.ofNat 3 (k - 1) } := by
  have h1 : 2 ^ k ≠ 1 := (Nat.one_lt_two_pow (by omega : k ≠ 0)).ne'
  simp only [magicFor, h1, Nat.log2_two_pow, if_true, if_false]

/-- The row for a divisor that is no power of two (R135 (c)). -/
theorem magicFor_not_two_pow {d : Nat} (h : ¬ ∃ k, d = 2 ^ k) :
    magicFor d = { mul := BitVec.ofNat 32 (2 ^ 32 / d), add := BitVec.ofNat 32 (2 ^ 32 / d), shift := 0 } := by
  have h1 : d ≠ 1 := fun e => h ⟨0, by simpa using e⟩
  have h2 : 2 ^ d.log2 ≠ d := fun e => h ⟨d.log2, e.symm⟩
  simp [magicFor, h1, h2]

/-- The response data of WIDX in numbers (R83, R139). -/
theorem widxData_toNat {w off : Nat} (hw : w < 2 ^ 32) (ho : off < 2 ^ 8) :
    (widxData w off).toNat = w + 2 ^ 32 * off := by
  rw [widxData]
  change BitVec.toNat (w := 24 + 8 + 32) (0#24 ++ BitVec.ofNat 8 off ++ BitVec.ofNat 32 w) = _
  rw [BitVec.toNat_append, BitVec.toNat_append]
  simp only [BitVec.toNat_ofNat, Nat.zero_mod, Nat.zero_shiftLeft, Nat.zero_or]
  rw [Nat.mod_eq_of_lt ho, Nat.mod_eq_of_lt hw, Nat.shiftLeft_eq, Nat.mul_comm, ← Nat.two_pow_add_eq_or_of_lt hw]
  omega

/-! ## The shape of a context -/

/-- A legal width has 2 to 64 values per word (R24). -/
theorem valuesPerWord_range {bits : Nat} (h1 : 1 ≤ bits) (h2 : bits ≤ 32) :
    2 ≤ valuesPerWord bits ∧ valuesPerWord bits ≤ 64 ∧ valuesPerWord bits * bits ≤ 64 := by
  refine ⟨?_, Nat.div_le_self .., Nat.div_mul_le_self ..⟩
  rw [valuesPerWord, Nat.le_div_iff_mul_le (by omega)]
  omega

/-- The number of words fits 32 bits: at most 2^31 (R25). -/
theorem wordsNeeded_le {bits size : Nat} (h1 : 1 ≤ bits) (h2 : bits ≤ 32) (hs : size < 2 ^ 32) :
    wordsNeeded bits size ≤ 2 ^ 31 := by
  have ⟨hv, _, _⟩ := valuesPerWord_range h1 h2
  rw [wordsNeeded, ← Nat.lt_succ_iff, Nat.div_lt_iff_lt_mul (by omega)]
  generalize valuesPerWord bits = v at hv
  obtain ⟨k, rfl⟩ := Nat.exists_eq_add_of_le hv
  have : (2 + k) * (2 ^ 31).succ = 2 ^ 32 + 2 + k * (2 ^ 31 + 1) := by simp [Nat.succ_eq_add_one, Nat.add_mul]
  rw [Nat.mul_comm] at this
  have hk : k ≤ k * (2 ^ 31 + 1) := Nat.le_mul_of_pos_right _ (by norm_num)
  omega

/-- MASK in numbers (R23). -/
theorem maskOf_toNat {bits : Nat} (h : bits ≤ 32) : (maskOf bits).toNat = 2 ^ bits - 1 := by
  have hp : 2 ^ bits ≤ 2 ^ 32 := Nat.pow_le_pow_right (by norm_num) h
  have hp1 : 1 ≤ 2 ^ bits := Nat.one_le_two_pow
  have e : (1#64 <<< bits).toNat = 2 ^ bits := by
    rw [BitVec.toNat_shiftLeft, Nat.shiftLeft_eq]
    simp only [BitVec.toNat_ofNat, Nat.reducePow, Nat.reduceMod, Nat.one_mul]
    exact Nat.mod_eq_of_lt (by omega)
  rw [maskOf, BitVec.toNat_sub, e]
  simp only [BitVec.toNat_ofNat]
  omega

/-- What `Shape(bits, size)` puts in each register, in numbers (R110). -/
theorem shapeOf_toNat {bits size : Nat} (h1 : 1 ≤ bits) (h2 : bits ≤ 32) (hs : size < 2 ^ 32) :
    (shapeOf bits size).size.toNat = size ∧ (shapeOf bits size).bits.toNat = bits ∧
    (shapeOf bits size).mask.toNat = 2 ^ bits - 1 ∧ (shapeOf bits size).vpw.toNat = valuesPerWord bits ∧
    (shapeOf bits size).nwords.toNat = wordsNeeded bits size ∧
    magic ((shapeOf bits size).vpw.toNat - 1) =
      { mul := (shapeOf bits size).divmul, add := (shapeOf bits size).divadd,
        shift := (shapeOf bits size).divshift } := by
  have ⟨_, hv, _⟩ := valuesPerWord_range h1 h2
  have hw := wordsNeeded_le h1 h2 hs
  have ev : (BitVec.ofNat 7 (valuesPerWord bits)).toNat = valuesPerWord bits := by
    simp only [BitVec.toNat_ofNat]; omega
  refine ⟨?_, ?_, maskOf_toNat h2, ev, ?_, ?_⟩
  · simp only [shapeOf, BitVec.toNat_ofNat]; omega
  · simp only [shapeOf, BitVec.toNat_ofNat]; omega
  · simp only [shapeOf, BitVec.toNat_ofNat]; omega
  · simp only [shapeOf, ev]

/-! ## The extractor and the depositor, bit by bit -/

theorem getLsbD_extract (word : Word) (off : Nat) (mask : Word) (j : Nat) :
    (extract word off mask).getLsbD j = (word.getLsbD (off + j) && mask.getLsbD j) := by
  simp [extract]

theorem getLsbD_deposit (word : Word) (off : Nat) (mask value : Word) (j : Nat) :
    (deposit word off mask value).getLsbD j =
      if off ≤ j ∧ j < 64 ∧ mask.getLsbD (j - off) then value.getLsbD (j - off) else word.getLsbD j := by
  have hw : 64 ≤ j → word.getLsbD j = false := fun h => BitVec.getLsbD_of_ge _ _ h
  by_cases hj : j < 64 <;> by_cases ho : off ≤ j <;> cases hm : mask.getLsbD (j - off) <;>
    simp_all [deposit, Nat.not_lt.2] <;> grind

/-- The mask of a width, bit by bit. -/
theorem getLsbD_of_mask {mask : Word} {bits : Nat} (h : mask.toNat = 2 ^ bits - 1) (j : Nat) :
    mask.getLsbD j = decide (j < bits) := by
  rw [BitVec.getLsbD, h, Nat.testBit_two_pow_sub_one]

/-- A masked word in numbers. -/
theorem toNat_and_mask {mask : Word} {bits : Nat} (h : mask.toNat = 2 ^ bits - 1) (word : Word) :
    (word &&& mask).toNat = word.toNat % 2 ^ bits := by
  rw [BitVec.toNat_and, h, Nat.and_two_pow_sub_one_eq_mod]

/-- The extractor in numbers (R51, R150). -/
theorem toNat_extract {mask : Word} {bits : Nat} (h : mask.toNat = 2 ^ bits - 1) (word : Word) (off : Nat) :
    (extract word off mask).toNat = word.toNat / 2 ^ off % 2 ^ bits := by
  rw [extract, toNat_and_mask h, BitVec.toNat_ushiftRight, Nat.shiftRight_eq_div_pow]

/-! ## Runs of slots -/

@[simp] theorem length_wordSlots (sh : Shape) (n : Nat) (word : Word) : (wordSlots sh n word).length = n := by
  induction n generalizing word with
  | zero => rfl
  | succ n ih => simp [wordSlots, ih]

/-- Value `j` of a run from a word is what the extractor reads at `j * BITS`. -/
theorem getElem_wordSlots (sh : Shape) (n : Nat) (word : Word) (j : Nat) (h : j < (wordSlots sh n word).length) :
    (wordSlots sh n word)[j] = (extract word (j * sh.bits.toNat) sh.mask).setWidth 32 := by
  induction n generalizing word j with
  | zero => simp at h
  | succ n ih =>
    cases j with
    | zero => simp [wordSlots, extract]
    | succ j =>
      simp only [wordSlots, List.getElem_cons_succ]
      rw [ih, extract, extract, Nat.add_mul, Nat.one_mul, Nat.add_comm, BitVec.shiftRight_add]

/-- The packed word of a longer group: the first value in the low bits (R113). -/
theorem packGroup_cons (sh : Shape) (v : Value) (vs : List Value) :
    packGroup sh (v :: vs) = (packGroup sh vs <<< sh.bits.toNat) ||| (v.setWidth 64 &&& sh.mask) := rfl

@[simp] theorem packGroup_nil (sh : Shape) : packGroup sh [] = 0 := rfl

/-- What packing a group computes (R113): the masked values side by side, nothing above them. -/
theorem packGroup_spec (sh : Shape) (hm : sh.mask.toNat = 2 ^ sh.bits.toNat - 1) (vs : List Value)
    (hl : vs.length * sh.bits.toNat ≤ 64) :
    (packGroup sh vs).toNat < 2 ^ (sh.bits.toNat * vs.length) ∧
    ∀ k (h : k < vs.length),
      (packGroup sh vs).toNat / 2 ^ (k * sh.bits.toNat) % 2 ^ sh.bits.toNat = vs[k].toNat % 2 ^ sh.bits.toNat := by
  induction vs with
  | nil => simp
  | cons v vs ih =>
    simp only [List.length_cons, Nat.add_mul, Nat.one_mul] at hl
    obtain ⟨ih1, ih2⟩ := ih (by omega)
    generalize hB : sh.bits.toNat = B at *
    have hlt : (packGroup sh vs).toNat * 2 ^ B < 2 ^ 64 :=
      calc (packGroup sh vs).toNat * 2 ^ B < 2 ^ (B * vs.length) * 2 ^ B :=
            Nat.mul_lt_mul_of_pos_right ih1 (by positivity)
        _ = 2 ^ (B * vs.length + B) := by rw [pow_add]
        _ ≤ 2 ^ 64 := Nat.pow_le_pow_right (by norm_num) (by rw [Nat.mul_comm]; omega)
    have e : (packGroup sh (v :: vs)).toNat = (packGroup sh vs).toNat * 2 ^ B + v.toNat % 2 ^ B := by
      rw [packGroup_cons, hB, BitVec.toNat_or, toNat_and_mask (bits := B) hm, BitVec.toNat_shiftLeft,
        Nat.shiftLeft_eq, Nat.mod_eq_of_lt hlt, BitVec.toNat_setWidth_of_le (by norm_num), Nat.mul_comm,
        ← Nat.two_pow_add_eq_or_of_lt (Nat.mod_lt _ (by positivity))]
    constructor
    · have h1 := Nat.mul_le_mul_right (2 ^ B) (show (packGroup sh vs).toNat + 1 ≤ 2 ^ (B * vs.length) from ih1)
      rw [Nat.add_mul, ← pow_add] at h1
      have h2 := Nat.mod_lt v.toNat (show 0 < 2 ^ B by positivity)
      simp only [e, List.length_cons, Nat.mul_add, Nat.mul_one]
      omega
    · intro k hk
      cases k with
      | zero => simp [e, Nat.add_mod]
      | succ k =>
        rw [e, Nat.add_mul, Nat.one_mul, Nat.add_comm (k * B), pow_add, ← Nat.div_div_eq_div_mul,
          Nat.mul_comm (BitVec.toNat _), Nat.mul_add_div (by positivity),
          Nat.div_eq_of_lt (Nat.mod_lt _ (by positivity)), Nat.add_zero]
        simpa using ih2 k (by simpa using hk)

/-- The words FROMVALUES packs are NWORDS in number. -/
@[simp] theorem State.length_packedWords (s : State) (sh : Shape) : (s.packedWords sh).length = sh.nwords.toNat := by
  simp [State.packedWords]

theorem State.getElem_packedWords (s : State) (sh : Shape) (w : Nat) (h : w < (s.packedWords sh).length) :
    (s.packedWords sh)[w] = packGroup sh (s.groupValues sh w) := by simp [State.packedWords]

/-- A group holds the VBUF cells from w * VPW up, as far as the size goes (R113). -/
theorem State.length_groupValues (s : State) (sh : Shape) (w : Nat) :
    (s.groupValues sh w).length = min sh.size.toNat (w * sh.vpw.toNat + sh.vpw.toNat) - w * sh.vpw.toNat := by
  simp [State.groupValues]

theorem State.getElem_groupValues (s : State) (sh : Shape) (w k : Nat) (h : k < (s.groupValues sh w).length) :
    (s.groupValues sh w)[k] = s.readValue (w * sh.vpw.toNat + k) := by simp [State.groupValues]

/-- GETALL gives every slot of the words it reads, and no more than are left. -/
theorem length_emitSlots (sh : Shape) (words : List Word) (left : Nat) :
    (emitSlots sh words left).length = min (words.length * sh.vpw.toNat) left := by
  induction words generalizing left with
  | nil => simp [emitSlots]
  | cons word rest ih =>
    simp only [emitSlots, List.length_append, length_wordSlots, ih, List.length_cons, Nat.add_mul, Nat.one_mul]
    omega

/-- Value `k` that GETALL gives is what the extractor reads in word `k / VPW` at `(k mod VPW) * BITS` (R171). -/
theorem getElem_emitSlots (sh : Shape) (words : List Word) (left k : Nat) (hV : 0 < sh.vpw.toNat)
    (h : k < (emitSlots sh words left).length) (hw : k / sh.vpw.toNat < words.length) :
    (emitSlots sh words left)[k] =
      (extract words[k / sh.vpw.toNat] ((k % sh.vpw.toNat) * sh.bits.toNat) sh.mask).setWidth 32 := by
  induction words generalizing left k with
  | nil => simp at hw
  | cons word rest ih =>
    have hl := h
    rw [length_emitSlots] at hl
    simp only [emitSlots]
    rcases Nat.lt_or_ge k sh.vpw.toNat with hk | hk
    · rw [List.getElem_append_left (by simp; omega), getElem_wordSlots]
      simp [Nat.div_eq_of_lt hk, Nat.mod_eq_of_lt hk]
    · rw [List.getElem_append_right (by simp; omega)]
      obtain ⟨q, rfl⟩ := Nat.exists_eq_add_of_le hk
      simp only [length_wordSlots, Nat.add_div_left _ hV, Nat.add_mod_left, List.getElem_cons_succ,
        show min sh.vpw.toNat left = sh.vpw.toNat by omega, Nat.add_sub_cancel_left]
      apply ih

/-- UNPACK's two phases give the same values as GETALL's loop, when the last word is reached with no more left than it
holds (R172). -/
theorem unpackSlots_eq_emitSlots (sh : Shape) (words : List Word) (left : Nat)
    (hlow : (words.length - 1) * sh.vpw.toNat ≤ left) (hhigh : left ≤ words.length * sh.vpw.toNat) :
    unpackSlots sh words left = emitSlots sh words left := by
  induction words generalizing left with
  | nil => rfl
  | cons word rest ih =>
    cases rest with
    | nil =>
      have : min sh.vpw.toNat left = left := by simp at hhigh; omega
      simp [unpackSlots, emitSlots, this]
    | cons next rest =>
      simp only [List.length_cons, Nat.add_mul, Nat.one_mul, Nat.add_sub_cancel] at hlow hhigh
      have hmin : min sh.vpw.toNat left = sh.vpw.toNat := by omega
      rw [unpackSlots, emitSlots, hmin, ih]
      · simp only [List.length_cons, Nat.add_sub_cancel]; omega
      · simp only [List.length_cons, Nat.add_mul, Nat.one_mul]; omega

end Sys2Proof.Machine
end

