-- ==== Sys2Proof/Laws/PerInstr.lean ====
section
/-! SUPPORT. Facts about every operation as syntax, one lemma a constructor. -/

namespace Sys2Proof.Laws.RoundTrip

/-- The decoder reads the encoded command back, whatever its operands. -/
def Statement (i : Instr) : Prop := decode (encode i) = .ok i

theorem new (c : CtxNum) (bits : BitVec 8) (size : Value) : Statement (.new c bits size) := by
  simp [Statement, decode, encode, mustBeZero, assemble]

theorem fromValues (c : CtxNum) (bits : BitVec 8) (size : Value) : Statement (.fromValues c bits size) := by
  simp [Statement, decode, encode, mustBeZero, assemble]

theorem fromWords (c : CtxNum) (bits : BitVec 8) (size wlen : Value) : Statement (.fromWords c bits size wlen) := by
  simp [Statement, decode, encode, mustBeZero, assemble]

theorem widx (c : CtxNum) (index : Value) : Statement (.widx c index) := by
  simp [Statement, decode, encode, mustBeZero, assemble]

theorem get (c : CtxNum) (index : Value) : Statement (.get c index) := by
  simp [Statement, decode, encode, mustBeZero, assemble]

theorem set (c : CtxNum) (index value : Value) : Statement (.set c index value) := by
  simp [Statement, decode, encode, mustBeZero, assemble]

theorem getAndSet (c : CtxNum) (index value : Value) : Statement (.getAndSet c index value) := by
  simp [Statement, decode, encode, mustBeZero, assemble]

theorem getAll (c : CtxNum) : Statement (.getAll c) := by
  simp [Statement, decode, encode, mustBeZero, assemble]

theorem unpack (c : CtxNum) : Statement (.unpack c) := by
  simp [Statement, decode, encode, mustBeZero, assemble]

theorem rawWords (c : CtxNum) : Statement (.rawWords c) := by
  simp [Statement, decode, encode, mustBeZero, assemble]

theorem clone (d c : CtxNum) : Statement (.clone d c) := by
  simp [Statement, decode, encode, mustBeZero, assemble]

end Sys2Proof.Laws.RoundTrip
end

