-- ==== Sys2Proof/Tests/Slice0.lean ====
section
/-! SUPPORT. Tests whose expected results are the spec's own (the worked examples of the operation rules, the tables of
spec/41_indexer.md and the vectors of spec/95_test_vectors.md), and for each statement a state and operands that meet its
hypotheses. -/

namespace Sys2Proof.Tests

open Sys2Proof.Machine

/-- The state a step or a command leaves, if any. -/
def nextOf (o : Host.Outcome State Fault Refusal) : Option State :=
  match o with
  | .next t => some t
  | _       => none

/-- A few fields of the state a command leaves: the responses, and the words of a context. -/
def seen (c : CtxNum) (o : Host.Outcome State Fault Refusal) : Option (List Response × Memory 64) :=
  (nextOf o).map fun t => (t.responses, (t.ctx c).words)

/-- The fault registers and the responses a command leaves. -/
def faultOf (o : Host.Outcome State Fault Refusal) :
    Option (Bool × BitVec 4 × BitVec 32 × BitVec 32 × List Response) :=
  (nextOf o).map fun t => (t.fault, t.ecode, t.einfo0, t.einfo1, t.responses)

/-- c0 holds the array of the source's property 6: BITS 5, SIZE 3, WORDS[0] = 0x7C41 (R113). -/
def demo : State := State.reset.build 0 (shapeOf 5 3) [0x7C41]

/-- `demo` with the values 1, 2, 31 in VBUF cells 0 to 2 and 0x7C41 in WBUF cell 0. -/
def staged : State := (demo.writeValues 0 [1, 2, 31]).writeStaged 0 [0x7C41]

/-- `demo` on a unit with one context, one word, two VBUF cells and no WBUF cell. -/
def tiny : State := { demo with cfg := { nctx := 1, wordsCap := 1, vbufLen := 2, wbufLen := 0 } }

/-- `demo` after a fault, with a beat in CB. -/
def faultedDemo : State := (demo.emit [7]).raise { cause := .noInstance, info0 := 1, info1 := 0 }

/-! ## Well-formedness: a term each check refuses -/

theorem test_wf_ctx : (Instr.get 2 0).wf Config.specExample = false := by decide
theorem test_wf_ctx_legal : (Instr.get 1 0).wf Config.specExample = true := by decide
theorem test_wf_clone_destination : (Instr.clone 2 0).wf Config.specExample = false := by decide
theorem test_wf_clone_source : (Instr.clone 0 2).wf Config.specExample = false := by decide
theorem test_wf_every_operation :
    ∀ i ∈ [Instr.new 2 5 1, .fromValues 2 5 1, .fromWords 2 5 1 1, .widx 2 0, .get 2 0, .set 2 0 0, .getAndSet 2 0 0,
      .getAll 2, .unpack 2, .rawWords 2, .clone 2 2], i.wf Config.specExample = false := by decide
theorem test_config_range : Config.specExample.wf ∧ ¬ (Config.mk 17 1 0 0).wf ∧ ¬ (Config.mk 1 51130565 0 0).wf := by
  decide

/-! ## Decoding: each operation's word, written out from R81 and R84 (numerals of spec/95_test_vectors.md) -/

theorem test_decode_new : decode 0x00000000_00001000_000D0001#96 = .ok (.new 0 13 4096) := by decide
theorem test_decode_fromValues : decode 0x00000000_00000012_00050102#96 = .ok (.fromValues 1 5 18) := by decide
theorem test_decode_fromWords : decode 0x00000002_00000008_00090103#96 = .ok (.fromWords 1 9 8 2) := by decide
theorem test_decode_widx : decode 0x00000000_00000011_00000110#96 = .ok (.widx 1 17) := by decide
theorem test_decode_get : decode 0x00000000_FFFFFFFF_00000020#96 = .ok (.get 0 0xFFFFFFFF) := by decide
theorem test_decode_set : decode 0xFFFFFFFF_00000FFF_00000021#96 = .ok (.set 0 4095 0xFFFFFFFF) := by decide
theorem test_decode_getAndSet : decode 0x0000002A_00000001_00000022#96 = .ok (.getAndSet 0 1 0x2A) := by decide
theorem test_decode_getAll : decode 0x00000000_00000000_00000130#96 = .ok (.getAll 1) := by decide
theorem test_decode_unpack : decode 0x00000000_00000000_00000131#96 = .ok (.unpack 1) := by decide
theorem test_decode_rawWords : decode 0x00000000_00000000_00000132#96 = .ok (.rawWords 1) := by decide
theorem test_decode_clone : decode 0x00000000_00000000_00001033#96 = .ok (.clone 0 1) := by decide
theorem test_decode_unknown_op : decode 0x00000000_00000000_00000011#96 = .error (.unknownOp 0x11) := by decide
/-- The must-be-zero fields, one at a time: ctx2, b, rsv of NEW; bitsarg of GET; a of GETALL (section 2.5). -/
theorem test_decode_nonzero_ctx2 : decode 0x00000000_0000000A_00051001#96 = .error (.nonZeroField 0x01) := by decide
theorem test_decode_nonzero_b : decode 0x00000001_0000000A_00050001#96 = .error (.nonZeroField 0x01) := by decide
theorem test_decode_nonzero_rsv : decode 0x00000000_0000000A_01050001#96 = .error (.nonZeroField 0x01) := by decide
theorem test_decode_nonzero_get : decode 0x00000000_00000000_00050020#96 = .error (.nonZeroField 0x20) := by decide
theorem test_decode_nonzero_getAll : decode 0x00000000_00000001_00000030#96 = .error (.nonZeroField 0x30) := by decide
theorem test_encode_fromWords : encode (.fromWords 1 9 8 2) = 0x00000002_00000008_00090103#96 := by decide
theorem test_decodeTableWord : decodeTableWord 96 0x33 = some (.clone 0 0) := by decide

/-! ## The constants of the word-indexer: the whole table of R134 -/

/-- Rows 0 to 15 of the table of R134: (DIVMUL, DIVADD, DIVSHIFT). -/
def specMagic0 : List (Nat × Nat × Nat) :=
  [ (0xFFFFFFFF, 0xFFFFFFFF, 0), (0x80000000, 0x00000000, 0), (0x55555555, 0x55555555, 0), (0x80000000, 0x00000000, 1),
    (0x33333333, 0x33333333, 0), (0x2AAAAAAA, 0x2AAAAAAA, 0), (0x24924924, 0x24924924, 0), (0x80000000, 0x00000000, 2),
    (0x1C71C71C, 0x1C71C71C, 0), (0x19999999, 0x19999999, 0), (0x1745D174, 0x1745D174, 0), (0x15555555, 0x15555555, 0),
    (0x13B13B13, 0x13B13B13, 0), (0x12492492, 0x12492492, 0), (0x11111111, 0x11111111, 0), (0x80000000, 0x00000000, 3) ]

/-- Rows 16 to 31 of the table of R134: (DIVMUL, DIVADD, DIVSHIFT). -/
def specMagic1 : List (Nat × Nat × Nat) :=
  [ (0x0F0F0F0F, 0x0F0F0F0F, 0), (0x0E38E38E, 0x0E38E38E, 0), (0x0D79435E, 0x0D79435E, 0), (0x0CCCCCCC, 0x0CCCCCCC, 0),
    (0x0C30C30C, 0x0C30C30C, 0), (0x0BA2E8BA, 0x0BA2E8BA, 0), (0x0B21642C, 0x0B21642C, 0), (0x0AAAAAAA, 0x0AAAAAAA, 0),
    (0x0A3D70A3, 0x0A3D70A3, 0), (0x09D89D89, 0x09D89D89, 0), (0x097B425E, 0x097B425E, 0), (0x09249249, 0x09249249, 0),
    (0x08D3DCB0, 0x08D3DCB0, 0), (0x08888888, 0x08888888, 0), (0x08421084, 0x08421084, 0), (0x80000000, 0x00000000, 4) ]

/-- Rows 32 to 47 of the table of R134: (DIVMUL, DIVADD, DIVSHIFT). -/
def specMagic2 : List (Nat × Nat × Nat) :=
  [ (0x07C1F07C, 0x07C1F07C, 0), (0x07878787, 0x07878787, 0), (0x07507507, 0x07507507, 0), (0x071C71C7, 0x071C71C7, 0),
    (0x06EB3E45, 0x06EB3E45, 0), (0x06BCA1AF, 0x06BCA1AF, 0), (0x06906906, 0x06906906, 0), (0x06666666, 0x06666666, 0),
    (0x063E7063, 0x063E7063, 0), (0x06186186, 0x06186186, 0), (0x05F417D0, 0x05F417D0, 0), (0x05D1745D, 0x05D1745D, 0),
    (0x05B05B05, 0x05B05B05, 0), (0x0590B216, 0x0590B216, 0), (0x0572620A, 0x0572620A, 0), (0x05555555, 0x05555555, 0) ]

/-- Rows 48 to 63 of the table of R134: (DIVMUL, DIVADD, DIVSHIFT). -/
def specMagic3 : List (Nat × Nat × Nat) :=
  [ (0x05397829, 0x05397829, 0), (0x051EB851, 0x051EB851, 0), (0x05050505, 0x05050505, 0), (0x04EC4EC4, 0x04EC4EC4, 0),
    (0x04D4873E, 0x04D4873E, 0), (0x04BDA12F, 0x04BDA12F, 0), (0x04A7904A, 0x04A7904A, 0), (0x04924924, 0x04924924, 0),
    (0x047DC11F, 0x047DC11F, 0), (0x0469EE58, 0x0469EE58, 0), (0x0456C797, 0x0456C797, 0), (0x04444444, 0x04444444, 0),
    (0x04325C53, 0x04325C53, 0), (0x04210842, 0x04210842, 0), (0x04104104, 0x04104104, 0), (0x80000000, 0x00000000, 5) ]

/-- The model's rows as numbers. -/
def magicRows (start : Nat) : List (Nat × Nat × Nat) :=
  (List.range' start 16).map fun k => ((magic k).mul.toNat, (magic k).add.toNat, (magic k).shift.toNat)

theorem test_magic_rows_0 : magicRows 0 = specMagic0 := by decide
theorem test_magic_rows_16 : magicRows 16 = specMagic1 := by decide
theorem test_magic_rows_32 : magicRows 32 = specMagic2 := by decide
theorem test_magic_rows_48 : magicRows 48 = specMagic3 := by decide

/-- The first inexact index of VPW 10 and the one before it (section 2.2). -/
theorem test_mulShift_limit :
    (mulShift 715827889 0x19999999 0x19999999 0).toNat = 71582788 ∧
    (mulShift 715827890 0x19999999 0x19999999 0).toNat = 71582788 := by decide

/-! ## Shapes (section 2.1) -/

theorem test_shape_32_bits :
    shapeOf 32 3 = { size := 3, bits := 32, mask := 0x00000000FFFFFFFF, vpw := 2, nwords := 2, divmul := 0x80000000,
                     divadd := 0, divshift := 0 } := by decide
theorem test_shape_3_bits :
    shapeOf 3 22 = { size := 22, bits := 3, mask := 7, vpw := 21, nwords := 2, divmul := 0x0C30C30C,
                     divadd := 0x0C30C30C, divshift := 0 } := by decide
theorem test_nwords_without_wrap : (shapeOf 32 0xFFFFFFFF).nwords = 0x80000000 := by decide

/-! ## The extractor and the depositor (the vectors of section 2.3) -/

theorem test_extract : extract 0x7C41 10 0x1F = 0x1F ∧ extract 0x80000001FFFFFFFF 32 0xFFFFFFFF = 0x80000001 := by decide
theorem test_deposit :
    deposit 0x7C41 5 0x1F 0xFF = 0x7FE1 ∧ deposit 0xFFFFFFFFFFFFFFFF 5 0x1F 0 = 0xFFFFFFFFFFFFFC1F ∧
    deposit 0 63 1 1 = 0x8000000000000000 ∧ deposit 0 31 0x7FFFFFFF 0xFFFFFFFF = 0x3FFFFFFF80000000 := by decide

/-! ## One command each (the worked examples of the operation rules) -/

theorem test_new : seen 0 (exec (.new 0 6 100) State.reset) =
    some ([⟨0, 10⟩], Memory.run 0 (List.replicate 10 0)) := by decide
theorem test_new_bad_width : faultOf (exec (.new 1 33 10) State.reset) =
    some (true, 1, 0x21, 0, [⟨1, 0⟩]) := by decide
theorem test_fromValues : seen 0 (exec (.fromValues 0 5 3) (State.reset.writeValues 0 [1, 2, 31])) =
    some ([⟨0, 1⟩], [(0, 0x7C41)]) := by decide
/-- A short last group: 13 and 14 in the low bits of word 1 (section 2.1). -/
theorem test_fromValues_short_group :
    seen 0 (exec (.fromValues 0 5 14) (State.reset.writeValues 0 [1, 2, 3, 4, 5, 6, 7, 8, 9, 10, 11, 12, 13, 14])) =
    some ([⟨0, 2⟩], [(0, 0x062D4941CC520C41), (1, 0x1CD)]) := by decide
theorem test_fromWords : seen 1 (exec (.fromWords 1 5 3 1) (State.reset.writeStaged 0 [0xFFFFFFFFFFFFFFFF])) =
    some ([⟨0, 1⟩], [(0, 0xFFFFFFFFFFFFFFFF)]) := by decide
theorem test_fromWords_wrong_length : faultOf (exec (.fromWords 1 5 3 2) State.reset) =
    some (true, 2, 1, 2, [⟨2, 0⟩]) := by decide
theorem test_widx : (nextOf (exec (.widx 0 25) (State.reset.build 0 (shapeOf 5 100) []))).map State.responses =
    some [⟨0, 0x0000000500000002⟩] := by decide
theorem test_get : (nextOf (exec (.get 0 2) demo)).map State.responses = some [⟨0, 31⟩] := by decide
theorem test_get_out_of_range : faultOf (exec (.get 0 3) demo) = some (true, 3, 3, 3, [⟨3, 0⟩]) := by decide
theorem test_set : seen 0 (exec (.set 0 1 0xFF) demo) = some ([⟨0, 0⟩], [(0, 0x7FE1)]) := by decide
theorem test_getAndSet : seen 0 (exec (.getAndSet 0 0 7) demo) = some ([⟨0, 1⟩], [(0, 0x7C47)]) := by decide
theorem test_getAll : (nextOf (exec (.getAll 0) (demo.emit [9]))).map (fun t => (t.cb, t.responses)) =
    some ([9, 1, 2, 31], [⟨0, 3⟩]) := by decide
theorem test_unpack : (nextOf (exec (.unpack 0) (demo.writeValues 0 [9, 9, 9, 9]))).map (fun t => (t.vbuf, t.responses)) =
    some ([(0, 1), (1, 2), (2, 31), (3, 9)], [⟨0, 3⟩]) := by decide
theorem test_unpack_capacity : faultOf (exec (.unpack 0) tiny) = some (true, 6, 3, 2, [⟨6, 0⟩]) := by decide
theorem test_rawWords : (nextOf (exec (.rawWords 0) (demo.writeStaged 1 [5]))).map (fun t => (t.wbuf, t.responses)) =
    some ([(0, 0x7C41), (1, 5)], [⟨0, 1⟩]) := by decide
theorem test_clone : seen 1 (exec (.clone 1 0) demo) = some ([⟨0, 1⟩], [(0, 0x7C41)]) := by decide
theorem test_clone_no_instance : faultOf (exec (.clone 1 0) State.reset) = some (true, 5, 0, 0, [⟨5, 0⟩]) := by decide

/-! ## One step each -/

theorem test_step_from_reset :
    seen 0 (step (State.reset.withFetchWord 96 0x00000000_00000003_00050001)) = some ([⟨0, 1⟩], [(0, 0)]) := by decide
/-- GET with ctx = 4 on a unit of two contexts (program P3). -/
theorem test_step_illegal_ctx :
    faultOf (step (State.reset.withFetchWord 96 0x00000000_00000003_00000420)) =
      some (true, 4, 0x420, 3, [⟨4, 0⟩]) := by decide
theorem test_step_illegal_field :
    faultOf (step (State.reset.withFetchWord 96 0x00000000_00000001_00000030)) =
      some (true, 4, 0x30, 1, [⟨4, 0⟩]) := by decide
theorem test_step_host_write :
    (nextOf (step { State.reset with inputs := [.writeValue 4095 7] })).map State.vbuf = some [(4095, 7)] := by decide
theorem test_step_reset :
    (nextOf (step { faultedDemo with inputs := [.reset] })).map
      (fun t => (t.fault, t.ecode, t.cb, (t.ctx 0).valid)) = some (false, 0, [], false) := by decide

/-! ## Memory: the canonical form is kept, and a test of a form that is not canonical -/

theorem test_memory_wf : Memory.wf ([(1, 0), (0, 0)] : Memory 32) ↔ False := by decide
theorem test_memory_write : Memory.write ([(0, 1), (2, 3)] : Memory 32) 1 2 = [(0, 1), (1, 2), (2, 3)] := by decide

/-! ## Witnesses: for each statement with hypotheses, a state and operands that meet them -/

/-- The host's next command is `cw`. -/
def issue (s : State) (cw : CommandWord) : State := { s with inputs := [.command cw] }

/-- An invalid context whose registers and words are not those of reset. -/
def junk : Context := { valid := false, shape := shapeOf 3 22, words := [(0, 5)] }

theorem demo_Inv : demo.Inv := by decide

theorem witness_DecodedWordIsItsEncoding : decode 0x133#96 = .ok (.clone 1 0) := by decide
theorem witness_StepRunsDecodedCommand :
    (issue demo 0x133).inputs = .command 0x133 :: [] ∧ decode 0x133 = .ok (.clone 1 0) := by decide
/-- No row matches. -/
theorem witness_IllegalWordsFault_noRow :
    (issue demo 4).inputs = .command 4 :: [] ∧ ∀ row ∈ opTable, (4 : CommandWord) &&& row.mask ≠ row.pattern := by decide
/-- NEW with ctx = 2 = NCTX. -/
theorem witness_IllegalWordsFault_ctx :
    (issue demo 0x0000000A_00050201).inputs = .command 0x0000000A_00050201 :: [] ∧
    demo.cfg.nctx ≤ ((0x0000000A_00050201 : CommandWord).extractLsb' 8 4).toNat := by decide
/-- CLONE with ctx2 = 2 = NCTX. -/
theorem witness_IllegalWordsFault_ctx2 :
    (issue demo 0x2133).inputs = .command 0x2133 :: [] ∧ (0x2133 : CommandWord).extractLsb' 0 8 = 0x33#8 ∧
    demo.cfg.nctx ≤ ((0x2133 : CommandWord).extractLsb' 12 4).toNat := by decide
/-- A legal word, the highest context of the unit. -/
theorem witness_IllegalWordsFault_legal :
    (issue demo 0x133).inputs = .command 0x133 :: [] ∧
    ¬ ((∀ row ∈ opTable, (0x133 : CommandWord) &&& row.mask ≠ row.pattern) ∨
      demo.cfg.nctx ≤ ((0x133 : CommandWord).extractLsb' 8 4).toNat ∨
      ((0x133 : CommandWord).extractLsb' 0 8 = 0x33#8 ∧
        demo.cfg.nctx ≤ ((0x133 : CommandWord).extractLsb' 12 4).toNat)) := by decide
theorem witness_UnitWaitsForACommand : State.reset.inputs = [] := by decide
theorem witness_FaultingCommandChangesOnlyFaultRegisters :
    exec (.get 0 3) demo = .next (demo.raise { cause := .indexOutOfBounds, info0 := 3, info1 := 3 }) ∧
    exec (.get 0 2) demo = .next (demo.respond 31) ∧
    (issue demo 0x133).inputs = .command 0x133 :: [] ∧ (issue demo 4).inputs = .command 4 :: [] := ⟨rfl, rfl, rfl, rfl⟩
theorem witness_OperationsFaultAsTabled :
    exec (.get 0 2) demo = .next (demo.respond 31) ∧ Cause.noInstance ∈ mayFault (.get 0 2) ∧ demo.Inv ∧
    exec (.get 1 2) demo = .next (faulted demo .noInstance 1 0) := ⟨rfl, by decide, by decide, rfl⟩
theorem witness_CommandReportsTheFirstCause :
    expectedFault (.get 0 3) demo = some (.indexOutOfBounds, 3, 3) ∧ expectedFault (.get 0 2) demo = none ∧
    (issue demo 4).inputs = .command 4 :: [] ∧ decode 4 = .error (.unknownOp 4) := by decide
/-- Both ends of the illegal widths. -/
theorem witness_BadWidthIsInvalidArgument :
    (1 : CtxNum).toNat < demo.cfg.nctx ∧ (0 : BitVec 8).toNat = 0 ∧ 33 ≤ (33 : BitVec 8).toNat ∧
    ∃ t, exec (.new 1 33 10) demo = .next t ∧ t.responses = demo.responses ++ [{ status := 1, data := 0 }] :=
  ⟨by decide, by decide, by decide, _, rfl, by decide⟩
theorem witness_WrongLengthIsInitializationError :
    (1 : CtxNum).toNat < demo.cfg.nctx ∧ 1 ≤ (5 : BitVec 8).toNat ∧ (5 : BitVec 8).toNat ≤ 32 ∧
    (2 : Value).toNat ≠ ceilWords (5 : BitVec 8).toNat (3 : Value).toNat ∧
    ∃ t, exec (.fromWords 1 5 3 2) demo = .next t ∧ t.responses = demo.responses ++ [{ status := 2, data := 0 }] :=
  ⟨by decide, by decide, by decide, by decide, _, rfl, by decide⟩
/-- All five capacities exceeded by one. -/
theorem witness_TooLargeIsCapacityExceeded :
    (0 : CtxNum).toNat < tiny.cfg.nctx ∧ tiny.cfg.wordsCap < ceilWords 32 3 ∧
    (ceilWords 5 3 ≤ tiny.cfg.wordsCap ∧ tiny.cfg.vbufLen < (3 : Value).toNat) ∧
    (ceilWords 5 3 ≤ tiny.cfg.wordsCap ∧ tiny.cfg.wbufLen < ceilWords 5 3) ∧
    ((tiny.ctx 0).valid = true ∧ tiny.cfg.vbufLen < (tiny.ctx 0).shape.size.toNat) ∧
    tiny.cfg.wbufLen < (tiny.ctx 0).shape.nwords.toNat := by decide
/-- An invalid context; and the index SIZE in a valid one. -/
theorem witness_IndexTakersCheckContextThenIndex :
    ((1 : CtxNum).toNat < demo.cfg.nctx ∧ (demo.ctx 1).valid = false) ∧
    ((0 : CtxNum).toNat < demo.cfg.nctx ∧ (demo.ctx 0).valid = true ∧
      (demo.ctx 0).shape.size.toNat ≤ (3 : Value).toNat) := by decide
theorem witness_WholeArrayOperationsCheckContext :
    (1 : CtxNum).toNat < demo.cfg.nctx ∧ (0 : CtxNum).toNat < demo.cfg.nctx ∧ (demo.ctx 1).valid = false := by decide
/-- The largest 1-bit array that fits the example unit. -/
theorem witness_NewBuildsZeroedWords :
    (1 : CtxNum).toNat < State.reset.cfg.nctx ∧ 1 ≤ (1 : BitVec 8).toNat ∧ (1 : BitVec 8).toNat ≤ 32 ∧
    ceilWords 1 (4194304 : Value).toNat ≤ State.reset.cfg.wordsCap := by decide
/-- As many values as VBUF holds. -/
theorem witness_FromValuesPacksMaskedValues :
    (1 : CtxNum).toNat < State.reset.cfg.nctx ∧ 1 ≤ (32 : BitVec 8).toNat ∧ (32 : BitVec 8).toNat ≤ 32 ∧
    ceilWords 32 (4096 : Value).toNat ≤ State.reset.cfg.wordsCap ∧
    (4096 : Value).toNat ≤ State.reset.cfg.vbufLen := by decide
theorem witness_FromWordsTakesWordsVerbatim :
    (1 : CtxNum).toNat < staged.cfg.nctx ∧ 1 ≤ (5 : BitVec 8).toNat ∧ (5 : BitVec 8).toNat ≤ 32 ∧
    (1 : Value).toNat = ceilWords 5 (3 : Value).toNat ∧ ceilWords 5 3 ≤ staged.cfg.wordsCap ∧
    (1 : Value).toNat ≤ staged.cfg.wbufLen := by decide
/-- A power of two; and, for the divisor 10, the last exact index and the first inexact one (R134). -/
theorem witness_MultiplyShiftExactness :
    (1 ≤ 64 ∧ 64 ≤ 64 ∧ ∃ k, 64 = 2 ^ k) ∧ (1 ≤ 10 ∧ 10 ≤ 64 ∧ ¬ ∃ k, 10 = 2 ^ k) ∧
    (715827889 + 1) * (2 ^ 32 % 10) ≤ (715827889 % 10 + 1) * 2 ^ 32 ∧
    (715827890 % 10 + 1) * 2 ^ 32 < (715827890 + 1) * (2 ^ 32 % 10) := by
  refine ⟨⟨by decide, by decide, 6, by decide⟩, ⟨by decide, by decide, ?_⟩, by decide, by decide⟩
  rintro ⟨k, h⟩
  have h4 : k < 4 := by
    by_contra hk
    have := Nat.pow_le_pow_right (show 0 < 2 by decide) (show 4 ≤ k by omega)
    omega
  interval_cases k <;> omega
/-- The last index of the context. -/
theorem witness_WordIndexIsTheQuotient :
    demo.Inv ∧ (demo.ctx 0).valid = true ∧ (2 : Value).toNat < (demo.ctx 0).shape.size.toNat := by decide
theorem witness_BitOffsetStaysInTheWord :
    demo.Inv ∧ (demo.ctx 0).valid = true ∧ (2 : Value).toNat < (demo.ctx 0).shape.size.toNat := by decide
theorem witness_WidxAnswersWordAndOffset : demo.Inv ∧ demo.accessible 0 2 := by decide
theorem witness_ExtractorAndDepositorLaws :
    1 ≤ 5 ∧ 5 ≤ 32 ∧ 5 ∣ 55 ∧ 55 ≤ 64 - 5 ∧ 5 ∣ 50 ∧ 50 ≤ 64 - 5 ∧ 50 ≠ 55 ∧ 64 / 5 * 5 ≤ 60 := by decide
theorem witness_GetAnswersTheSlot : demo.Inv ∧ demo.accessible 0 2 := by decide
theorem witness_SetWritesOnlyTheSlot : demo.Inv ∧ demo.accessible 0 1 := by decide
theorem witness_GetAndSetAnswersOldAndWrites : demo.Inv ∧ demo.accessible 0 0 := by decide
theorem witness_GetAndSetIsGetThenSet : demo.accessible 0 0 := by decide
theorem witness_SetThenGetReadsBack : demo.Inv ∧ demo.accessible 0 2 := by decide
theorem witness_SetNeverChangesAnotherSlot :
    demo.Inv ∧ demo.accessible 0 1 ∧ demo.accessible 0 2 ∧ (1 : Value) ≠ 2 := by decide
theorem witness_DiscardedValueBitsLeaveNoTrace :
    (0xFF : Value).setWidth 64 &&& (demo.ctx 0).shape.mask = (0x1F : Value).setWidth 64 &&& (demo.ctx 0).shape.mask ∧
    (0xFF : Value) ≠ 0x1F := by decide
theorem witness_GetAllEmitsEverySlotInOrder : demo.Inv ∧ demo.usable 0 := by decide
theorem witness_UnpackWritesEverySlot :
    demo.Inv ∧ demo.usable 0 ∧ (demo.ctx 0).shape.size.toNat ≤ demo.cfg.vbufLen := by decide
theorem witness_RawWordsCopiesEveryWord :
    demo.usable 0 ∧ (demo.ctx 0).shape.nwords.toNat ≤ demo.cfg.wbufLen := by decide
/-- Into the other context, and onto itself. -/
theorem witness_CloneCopiesTheContext :
    demo.Inv ∧ demo.usable 0 ∧ (1 : CtxNum).toNat < demo.cfg.nctx ∧ (0 : CtxNum).toNat < demo.cfg.nctx := by decide
theorem witness_RawWordsThenFromWordsRebuilds :
    demo.Inv ∧ demo.usable 0 ∧ (1 : CtxNum).toNat < demo.cfg.nctx ∧
    (demo.ctx 0).shape.nwords.toNat ≤ demo.cfg.wbufLen := by decide
theorem witness_CloneIsIsolated :
    demo.Inv ∧ demo.accessible 0 0 ∧ (1 : CtxNum).toNat < demo.cfg.nctx ∧ (1 : CtxNum) ≠ 0 := by decide
theorem witness_EveryStepKeepsTheInvariant :
    (issue demo 0x0000002A_00000001_00000022).Inv ∧ ∃ t, step (issue demo 0x0000002A_00000001_00000022) = .next t :=
  ⟨by decide, _, rfl⟩
theorem witness_ResetMeetsTheInvariant : (Config.mk 16 51130564 0 (2 ^ 31)).wf := by decide
theorem witness_EveryStepCompletes :
    step { demo with inputs := [.writeValue 4096 0] } = .fault (.noValueCell 4096) ∧
    step { demo with inputs := [.writeWord 4096 0] } = .fault (.noWordCell 4096) := ⟨rfl, rfl⟩
theorem witness_PositionAdvancesByOnePerCommand :
    ∃ t, step (issue demo 0) = .next t ∧ t.position = demo.position + 1 := ⟨_, rfl, by decide⟩
/-- A reset after a faulting command, and a host write: the position stays. -/
theorem witness_PositionAdvancesByOnePerCommand_other :
    (∃ t, step { faultedDemo with inputs := [.reset] } = .next t ∧ t.position = faultedDemo.position) ∧
    (∃ t, step { demo with inputs := [.writeValue 0 7] } = .next t ∧ t.position = demo.position) ∧
    ∃ t, step State.reset = .next t ∧ t.position = 0 :=
  ⟨⟨_, rfl, by decide⟩, ⟨_, rfl, by decide⟩, _, rfl, by decide⟩
theorem witness_CommandTouchesOnlyItsContext :
    (∃ t, exec (.set 0 1 0xFF) demo = .next t) ∧ (1 : CtxNum) ≠ (Instr.set 0 1 0xFF).target ∧
    (Instr.set 0 1 0xFF).mnemonic ∈ ["GET", "SET", "GETANDSET", "WIDX", "GETALL", "UNPACK", "RAWWORDS"] :=
  ⟨⟨_, rfl⟩, by decide, by decide⟩
theorem witness_SpacesAreWrittenOnlyAsTabled :
    (∃ t, exec (.widx 0 2) demo = .next t) ∧ (Instr.widx 0 2).mnemonic ≠ "UNPACK" ∧
    (Instr.widx 0 2).mnemonic ≠ "RAWWORDS" ∧ (Instr.widx 0 2).mnemonic ≠ "GETALL" ∧
    (Instr.widx 0 2).mnemonic ∈ ["WIDX", "GET", "GETALL", "UNPACK", "RAWWORDS"] :=
  ⟨⟨_, rfl⟩, by decide, by decide, by decide, by decide⟩
theorem witness_ContextsShareNothing :
    (1 : CtxNum) ≠ (Instr.set 0 1 0xFF).target ∧ (Instr.set 0 1 0xFF).source ≠ some 1 ∧
    ∃ t, exec (.set 0 1 0xFF) demo = .next t := ⟨by decide, by decide, _, rfl⟩
/-- A command after which the context is valid, and one after which it is not. -/
theorem witness_InvalidContentsAreNeverObserved :
    (demo.ctx 1).valid = false ∧ junk.valid = false ∧
    (∃ t, exec (.clone 1 0) demo = .next t ∧ (t.ctx 1).valid = true) ∧
    (∃ t, exec (.get 1 0) demo = .next t ∧ (t.ctx 1).valid = false) :=
  ⟨by decide, by decide, ⟨_, rfl, by decide⟩, _, rfl, by decide⟩
theorem witness_OnlyResetClears :
    ({ faultedDemo with inputs := [.reset] } : State).inputs = .reset :: [] ∧
    (∃ t, step (issue faultedDemo 0x20) = .next t) ∧ (issue faultedDemo 0x20).inputs.head? ≠ some .reset ∧
    faultedDemo.fault = true ∧ (faultedDemo.ctx 0).valid = true ∧ faultedDemo.cb = [7] :=
  ⟨rfl, ⟨_, rfl⟩, by decide, by decide, by decide, by decide⟩
/-- The last cell of each staging buffer. -/
theorem witness_HostWritesOneStagingCell :
    (({ demo with inputs := [.writeValue 4095 7] } : State).inputs = .writeValue 4095 7 :: [] ∧
      4095 < demo.cfg.vbufLen) ∧
    (({ demo with inputs := [.writeWord 4095 7] } : State).inputs = .writeWord 4095 7 :: [] ∧
      4095 < demo.cfg.wbufLen) := by decide

end Sys2Proof.Tests
end

section
/-! The state after reset (spec/10_state.md R38): what it holds, and that it meets the invariant. -/

namespace Sys2Proof.Machine

/-- A context after reset is sound: it is not valid, so R27 asks nothing of its registers, and no word is written. -/
theorem Context.sound_reset (cfg : Config) : Context.reset.sound cfg :=
  ⟨Memory.wf_nil, fun hvalid => nomatch hvalid⟩

namespace State

variable (cfg : Config) (n : Nat)

@[simp] theorem resetWith_cfg : (resetWith cfg n).cfg = cfg := rfl
@[simp] theorem resetWith_vbuf : (resetWith cfg n).vbuf = [] := rfl
@[simp] theorem resetWith_wbuf : (resetWith cfg n).wbuf = [] := rfl
@[simp] theorem resetWith_fault : (resetWith cfg n).fault = false := rfl
@[simp] theorem resetWith_ecode : (resetWith cfg n).ecode = 0 := rfl
@[simp] theorem resetWith_einfo0 : (resetWith cfg n).einfo0 = 0 := rfl
@[simp] theorem resetWith_einfo1 : (resetWith cfg n).einfo1 = 0 := rfl
@[simp] theorem resetWith_responses : (resetWith cfg n).responses = [] := rfl

@[simp] theorem resetWith_ctx (c : CtxNum) : (resetWith cfg n).ctx c = Context.reset :=
  Vector.getElem_replicate c.isLt

/-- Of what the invariant asks, only the ranges of R7 depend on the parameters: nothing is valid, written, recorded or
answered yet. -/
theorem inv_resetWith (hcfg : cfg.wf) : (resetWith cfg n).Inv := by
  refine ⟨hcfg, fun c => ?sound, fun c _ => ?beyondNctx, ?vbuf, ?wbuf, ?noFault, ?faulted, ?responses⟩
  case sound => exact resetWith_ctx cfg n c ▸ Context.sound_reset cfg
  case beyondNctx => exact congrArg Context.valid (resetWith_ctx cfg n c)
  case vbuf => simp [Memory.wf_nil]
  case wbuf => simp [Memory.wf_nil]
  case noFault => simp
  case faulted => simp
  case responses => simp

end State

end Sys2Proof.Machine

open Sys2Proof Sys2Proof.Machine

/-- Settles O40: the parameters of the examples are in R7's ranges, so both halves are the invariant of
`State.resetWith`. -/
theorem resetMeetsTheInvariant : Obligations.ResetMeetsTheInvariant :=
  have hexample : Config.specExample.wf := by decide
  ⟨State.inv_resetWith Config.specExample 0 hexample, State.inv_resetWith⟩

end

section
/-! The word-indexer and the layout of a sound context (spec/10_state.md R24, R25, R27; spec/41_indexer.md R131, R136,
R137, R140). -/

namespace Sys2Proof.Machine

/-- R136 for a divisor that does not divide 2^32: the reciprocal `2^32 / d`, rounded down, loses `2^32 % d` a step, and
the quotient is exact as long as the loss stays within the condition. -/
theorem mul_reciprocal_div {d i : Nat} (hd : 0 < d) (hrem : 0 < 2 ^ 32 % d)
    (hexact : (i + 1) * (2 ^ 32 % d) ≤ (i % d + 1) * 2 ^ 32) :
    (i * (2 ^ 32 / d) + 2 ^ 32 / d) / 2 ^ 32 = i / d := by
  generalize 2 ^ 32 = P at *
  have hsplit : d * (P / d) + P % d = P := Nat.div_add_mod P d
  have hi : d * (i / d) + i % d = i := Nat.div_add_mod i d
  have hloss : (i * (P / d) + P / d) * d + (i + 1) * (P % d) = (i + 1) * P := by
    conv_rhs => rw [← hsplit]
    ring
  apply Nat.div_eq_of_lt_le
  · refine Nat.le_of_mul_le_mul_right (c := d) ?_ hd
    have : (i + 1) * P = i / d * P * d + (i % d + 1) * P := by
      conv_lhs => rw [← hi]
      ring
    omega
  · refine Nat.lt_of_mul_lt_mul_right (a := d) ?_
    have hlt : i % d < d := Nat.mod_lt i hd
    have hpos : 0 < (i + 1) * (P % d) := Nat.mul_pos i.succ_pos hrem
    calc (i * (P / d) + P / d) * d < (i + 1) * P := by omega
      _ ≤ (d * (i / d) + d) * P := Nat.mul_le_mul_right P (by omega)
      _ = (i / d + 1) * P * d := by ring

/-- R131, R136: the multiply-shift with the constants of the table is the quotient, where its error term stays below
one quotient. For a power of two the error term is 0. -/
theorem mulShift_magic_eq_div {d : Nat} (i : BitVec 32) (h2 : 2 ≤ d) (h64 : d ≤ 64)
    (hexact : (i.toNat + 1) * (2 ^ 32 % d) ≤ (i.toNat % d + 1) * 2 ^ 32) :
    (mulShift i (magic (d - 1)).mul (magic (d - 1)).add (magic (d - 1)).shift).toNat = i.toNat / d := by
  rw [magic, Nat.sub_add_cancel (by omega), mulShift_toNat]
  by_cases hpow : ∃ k, d = 2 ^ k
  · obtain ⟨k, rfl⟩ := hpow
    have hk1 : 1 ≤ k := Nat.one_le_iff_ne_zero.2 (by rintro rfl; omega)
    have hk6 : k ≤ 6 := (Nat.pow_le_pow_iff_right (by norm_num : 1 < 2)).1 h64
    have hshift : (BitVec.ofNat 3 (k - 1)).toNat = k - 1 := by
      simp only [BitVec.toNat_ofNat]; omega
    have hhalf : i.toNat * 2 ^ 31 / 2 ^ 32 = i.toNat / 2 := by omega
    rw [magicFor_two_pow hk1, hshift]
    change (i.toNat * 2 ^ 31 + 0) / 2 ^ 32 / 2 ^ (k - 1) = _
    rw [Nat.add_zero, hhalf, Nat.div_div_eq_div_mul, ← Nat.pow_succ', Nat.succ_eq_add_one, Nat.sub_add_cancel hk1]
  · have hlt : 2 ^ 32 / d < 2 ^ 32 := Nat.div_lt_self (by norm_num) h2
    have hrem : 0 < 2 ^ 32 % d := by
      refine Nat.pos_of_ne_zero fun h0 => hpow ?_
      obtain ⟨k, -, hk⟩ := (Nat.dvd_prime_pow Nat.prime_two).1 (Nat.dvd_of_mod_eq_zero h0)
      exact ⟨k, hk⟩
    have hmul : (BitVec.ofNat 32 (2 ^ 32 / d)).toNat = 2 ^ 32 / d := Nat.mod_eq_of_lt hlt
    rw [magicFor_not_two_pow hpow, hmul]
    change _ / 2 ^ 32 / 2 ^ 0 = _
    rw [pow_zero, Nat.div_one, mul_reciprocal_div (by omega) hrem hexact]

/-- The bound of R7 on WORDS_CAP is what keeps the error term of every legal width below one quotient (R137). The width
3 with its divisor 21 meets it with equality. -/
theorem reciprocal_error_bound {bits : Nat} (h1 : 1 ≤ bits) (h32 : bits ≤ 32) :
    51130563 * (64 / bits) * (2 ^ 32 % (64 / bits)) + 2 ^ 32 % (64 / bits) ≤ 2 ^ 32 := by
  interval_cases bits <;> decide

/-- The error term of a quotient of at most `b` is below one quotient when that of `b` itself is. -/
theorem error_le_of_quotient_le {P V b k : Nat} (hbound : b * V * (P % V) + P % V ≤ P) (hquot : k / V ≤ b) :
    (k + 1) * (P % V) ≤ (k % V + 1) * P := by
  have hmul : k / V * V * (P % V) ≤ b * V * (P % V) := Nat.mul_le_mul_right _ (Nat.mul_le_mul_right _ hquot)
  calc (k + 1) * (P % V) = k / V * V * (P % V) + P % V + k % V * (P % V) := by
        conv_lhs => rw [← Nat.div_add_mod k V]
        ring
    _ ≤ P + k % V * P := Nat.add_le_add (by omega) (Nat.mul_le_mul_left _ (Nat.mod_le P V))
    _ = (k % V + 1) * P := by ring

namespace Shape.sound

variable {cfg : Config} {sh : Shape} (h : sh.sound cfg)
include h

/-- R24: a word holds at least two slots, and they fit it. -/
theorem vpw_range : 2 ≤ sh.vpw.toNat ∧ sh.vpw.toNat ≤ 64 ∧ sh.vpw.toNat * sh.bits.toNat ≤ 64 := by
  obtain ⟨⟨hb1, hb32⟩, -, hvpw, -⟩ := h
  exact hvpw ▸ valuesPerWord_range hb1 hb32

/-- R25: NWORDS words hold SIZE slots, and one word fewer does not. -/
theorem size_bounds :
    sh.size.toNat ≤ sh.nwords.toNat * sh.vpw.toNat ∧ (sh.nwords.toNat - 1) * sh.vpw.toNat ≤ sh.size.toNat := by
  obtain ⟨hv, -, -⟩ := h.vpw_range
  obtain ⟨-, -, -, hn, -⟩ := h
  generalize sh.vpw.toNat = V at *
  generalize sh.size.toNat = S at *
  generalize sh.nwords.toNat = N at *
  have hle : N * V ≤ S + V - 1 := hn ▸ Nat.div_mul_le_self _ _
  have hlt : S + V - 1 < N * V + V := by
    have := Nat.lt_div_mul_add (a := S + V - 1) (b := V) (by omega)
    rwa [← hn] at this
  rw [Nat.sub_mul]
  omega

/-- The word that the layout gives a slot is one of the context's (R51). -/
theorem div_vpw_lt_nwords {k : Nat} (hk : k < sh.size.toNat) : k / sh.vpw.toNat < sh.nwords.toNat :=
  Nat.div_lt_of_lt_mul (Nat.mul_comm .. ▸ Nat.lt_of_lt_of_le hk h.size_bounds.1)

/-- R55: a slot ends inside its word. -/
theorem slot_ends_in_word (k : Nat) : k % sh.vpw.toNat * sh.bits.toNat + sh.bits.toNat ≤ 64 := by
  obtain ⟨hv, -, hfit⟩ := h.vpw_range
  have hlt : k % sh.vpw.toNat + 1 ≤ sh.vpw.toNat := Nat.mod_lt k (by omega)
  calc k % sh.vpw.toNat * sh.bits.toNat + sh.bits.toNat = (k % sh.vpw.toNat + 1) * sh.bits.toNat := by ring
    _ ≤ sh.vpw.toNat * sh.bits.toNat := Nat.mul_le_mul_right _ hlt
    _ ≤ 64 := hfit

/-- R131, R137: the unit's multiply-shift is the quotient at every index below SIZE. -/
theorem wordIndex_eq_div (hcfg : cfg.wf) {i : Value} (hi : i.toNat < sh.size.toNat) :
    sh.wordIndex i = i.toNat / sh.vpw.toNat := by
  obtain ⟨hv2, hv64, -⟩ := h.vpw_range
  have hword := h.div_vpw_lt_nwords hi
  obtain ⟨⟨hb1, hb32⟩, -, hvpw, -, hmagic, hcap⟩ := h
  obtain ⟨-, ⟨-, hmax⟩, -⟩ := hcfg
  have herror := reciprocal_error_bound hb1 hb32
  rw [← hvpw] at herror
  have := mulShift_magic_eq_div i hv2 hv64 (error_le_of_quotient_le herror (by omega))
  rwa [hmagic] at this

/-- R140: the bit offset is the one of the layout. -/
theorem bitOffset_eq (hcfg : cfg.wf) {i : Value} (hi : i.toNat < sh.size.toNat) :
    sh.bitOffset i = i.toNat % sh.vpw.toNat * sh.bits.toNat := by
  rw [Shape.bitOffset, h.wordIndex_eq_div hcfg hi, Nat.mul_comm (_ / _), ← Nat.mod_eq_sub]

end Shape.sound

/-- R27, R110: the registers a constructor writes are sound, once its width and capacity checks pass. -/
theorem Shape.sound_shapeOf {cfg : Config} {bits : BitVec 8} {size : Value} (h1 : 1 ≤ bits.toNat)
    (h32 : bits.toNat ≤ 32) (hcap : (shapeOf bits.toNat size.toNat).nwords.toNat ≤ cfg.wordsCap) :
    (shapeOf bits.toNat size.toNat).sound cfg := by
  obtain ⟨hsize, hbits, hmask, hvpw, hnwords, hmagic⟩ := shapeOf_toNat h1 h32 size.isLt
  exact ⟨by omega, by rw [hbits, hmask], by rw [hbits, hvpw, valuesPerWord],
    by rw [hnwords, hsize, hvpw, wordsNeeded], hmagic, hcap⟩

end Sys2Proof.Machine
end

section
/-! What a command that passes its checks may rely on (spec/60_exceptions.md R202), and that every step keeps the
invariant (spec/10_state.md R20, R27, R33). -/

namespace Sys2Proof.Machine

/-- What a command asks of the state and of its operands: its context numbers are legal, the context it reads is valid,
and its width, index and amounts are in range. -/
def State.admits (s : State) : Instr → Prop
  | .new c bits size =>
    c.toNat < s.cfg.nctx ∧ (1 ≤ bits.toNat ∧ bits.toNat ≤ 32) ∧
    (shapeOf bits.toNat size.toNat).nwords.toNat ≤ s.cfg.wordsCap
  | .fromValues c bits size =>
    c.toNat < s.cfg.nctx ∧ (1 ≤ bits.toNat ∧ bits.toNat ≤ 32) ∧
    (shapeOf bits.toNat size.toNat).nwords.toNat ≤ s.cfg.wordsCap ∧ size.toNat ≤ s.cfg.vbufLen
  | .fromWords c bits size wlen =>
    c.toNat < s.cfg.nctx ∧ (1 ≤ bits.toNat ∧ bits.toNat ≤ 32) ∧
    wlen.toNat = (shapeOf bits.toNat size.toNat).nwords.toNat ∧
    (shapeOf bits.toNat size.toNat).nwords.toNat ≤ s.cfg.wordsCap ∧ wlen.toNat ≤ s.cfg.wbufLen
  | .widx c index => s.accessible c index
  | .get c index => s.accessible c index
  | .set c index _ => s.accessible c index
  | .getAndSet c index _ => s.accessible c index
  | .getAll c => s.usable c
  | .unpack c => s.usable c ∧ (s.ctx c).shape.size.toNat ≤ s.cfg.vbufLen
  | .rawWords c => s.usable c ∧ (s.ctx c).shape.nwords.toNat ≤ s.cfg.wbufLen
  | .clone d c => d.toNat < s.cfg.nctx ∧ s.usable c

/-- The checks of a command find nothing exactly when the state admits it. -/
theorem firstRaise_checksOf_eq_none {i : Instr} {s : State} : firstRaise (checksOf i s) = none ↔ s.admits i := by
  rw [firstRaise_eq_none]
  cases i <;>
    simp [checksOf, State.admits, Instr.wf, legalCtx, widthCheck, lengthCheck, and_assoc, Nat.one_le_iff_ne_zero]

/-- A command that the state admits has its effect and ends OK. -/
theorem exec_of_admits {i : Instr} {s : State} (h : s.admits i) :
    exec i s = .next ((effectOf i s).respond (dataOf i s)) :=
  exec_of_none (firstRaise_checksOf_eq_none.2 h)

/-! ## The invariant under the updates of the state -/

/-- UNPACK writes as many values as the context has slots (R172). -/
theorem length_unpackSlots {cfg : Config} {sh : Shape} (h : sh.sound cfg) {words : List Word}
    (hwords : words.length = sh.nwords.toNat) : (unpackSlots sh words sh.size.toNat).length = sh.size.toNat := by
  obtain ⟨hhigh, hlow⟩ := h.size_bounds
  rw [← hwords] at hhigh hlow
  rw [unpackSlots_eq_emitSlots sh words _ hlow hhigh, length_emitSlots, Nat.min_eq_right hhigh]

namespace State.Inv

variable {s : State} (h : s.Inv)
include h

theorem shape_sound {c : CtxNum} (hvalid : (s.ctx c).valid = true) : (s.ctx c).shape.sound s.cfg := by
  obtain ⟨-, hctx, -⟩ := h
  exact ((hctx c).2 hvalid).1

theorem keys_words {c : CtxNum} (hvalid : (s.ctx c).valid = true) :
    (s.ctx c).words.map Prod.fst = List.range (s.ctx c).shape.nwords.toNat := by
  obtain ⟨-, hctx, -⟩ := h
  exact ((hctx c).2 hvalid).2

/-- What the host has lined up is not the invariant's matter. -/
theorem of_inputs (inputs : List HostAction) : State.Inv { s with inputs } := h

/-- A context may be replaced by a sound one; one of NCTX or more only by an invalid one (R20). -/
theorem setCtx {c : CtxNum} {x : Context} (hsound : x.sound s.cfg)
    (hbeyond : s.cfg.nctx ≤ c.toNat → x.valid = false) : (s.setCtx c x).Inv := by
  obtain ⟨hcfg, hctx, hnctx, hrest⟩ := h
  refine ⟨hcfg, fun d => ?_, fun d hd => ?_, hrest⟩ <;> rw [ctx_setCtx] <;> split
  · exact hsound
  · exact hctx d
  · rename_i hdc
    exact hbeyond (hdc ▸ hd)
  · exact hnctx d hd

/-- A legal context may be built anew, from a sound shape and as many words as it has (R27, R28). -/
theorem build {c : CtxNum} (hc : c.toNat < s.cfg.nctx) {sh : Shape} (hsh : sh.sound s.cfg) {words : List Word}
    (hwords : words.length = sh.nwords.toNat) : (s.build c sh words).Inv :=
  h.setCtx ⟨Memory.wf_run 0 words, fun _ => ⟨hsh, by rw [Memory.keys_run, hwords, List.range_eq_range']⟩⟩
    fun hge => absurd hc (Nat.not_lt.2 hge)

/-- A slot write stays within the words of its context, since the word index is the quotient (R137). -/
theorem writeSlot {c : CtxNum} {i : Value} (hi : s.accessible c i) (v : Value) : (s.writeSlot c i v).Inv := by
  obtain ⟨⟨hc, hvalid⟩, hsize⟩ := hi
  have hsh := h.shape_sound hvalid
  have hkeys := h.keys_words hvalid
  have ⟨hcfg, hctx, _⟩ := h
  have hword : (s.ctx c).shape.wordIndex i < (s.ctx c).shape.nwords.toNat := by
    rw [hsh.wordIndex_eq_div hcfg hsize]
    exact hsh.div_vpw_lt_nwords hsize
  exact h.setCtx ⟨Memory.wf_write (hctx c).1 _ _, fun _ => ⟨hsh, Memory.keys_write_range hkeys hword _⟩⟩
    fun hge => absurd hc (Nat.not_lt.2 hge)

end State.Inv

/-- A run of cells written inside the length of a staging buffer leaves it canonical and inside its length. -/
theorem Memory.staging_writeRun {width len a : Nat} {m : Memory width} (hm : m.wf ∧ ∀ p ∈ m, p.1 < len)
    {vs : List (BitVec width)} (hfit : a + vs.length ≤ len) :
    (m.writeRun a vs).wf ∧ ∀ p ∈ m.writeRun a vs, p.1 < len := by
  obtain ⟨hwf, hlen⟩ := hm
  refine ⟨wf_writeRun hwf a vs, fun p hp => ?_⟩
  rcases mem_keys_writeRun (List.mem_map_of_mem hp) with hold | hnew
  · obtain ⟨q, hq, hqp⟩ := List.mem_map.1 hold
    exact hqp ▸ hlen q hq
  · omega

namespace State.Inv

variable {s : State} (h : s.Inv)
include h

/-- A write inside VBUF (R29). -/
theorem vbuf_writeRun {a : Nat} {vs : List Value} (hfit : a + vs.length ≤ s.cfg.vbufLen) :
    State.Inv { s with vbuf := s.vbuf.writeRun a vs } := by
  obtain ⟨hcfg, hctx, hnctx, hvbuf, hrest⟩ := h
  exact ⟨hcfg, hctx, hnctx, Memory.staging_writeRun hvbuf hfit, hrest⟩

/-- A write inside WBUF (R30). -/
theorem wbuf_writeRun {a : Nat} {ws : List Word} (hfit : a + ws.length ≤ s.cfg.wbufLen) :
    State.Inv { s with wbuf := s.wbuf.writeRun a ws } := by
  obtain ⟨hcfg, hctx, hnctx, hvbuf, hwbuf, hrest⟩ := h
  exact ⟨hcfg, hctx, hnctx, hvbuf, Memory.staging_writeRun hwbuf hfit, hrest⟩

/-- A response keeps the invariant if its status is one of R190 and it has data only beside OK (R83). -/
theorem answer {r : Response} (hr : r.status.toNat ≤ 6 ∧ (r.status ≠ okStatus → r.data = 0)) :
    (s.answer r).Inv := by
  obtain ⟨hcfg, hctx, hnctx, hvbuf, hwbuf, hclear, hset, hresponses⟩ := h
  refine ⟨hcfg, hctx, hnctx, hvbuf, hwbuf, hclear, hset, fun q hq => ?_⟩
  rcases List.mem_append.1 hq with hold | hnew
  · exact hresponses q hold
  · exact List.mem_singleton.1 hnew ▸ hr

theorem respond (d : BitVec 64) : (s.respond d).Inv :=
  h.answer ⟨(by decide : okStatus.toNat ≤ 6), fun hne => absurd rfl hne⟩

/-- Fault entry leaves a code of R190 in ECODE and in the response (R201). -/
theorem raise (r : Raise) : (s.raise r).Inv := by
  have hcode := r.cause.code_range
  have hrecorded : (s.recordFault r.cause r.info0 r.info1).Inv := by
    obtain ⟨hcfg, hctx, hnctx, hvbuf, hwbuf, -, -, hresponses⟩ := h
    exact ⟨hcfg, hctx, hnctx, hvbuf, hwbuf, fun hclear => absurd hclear (by simp), fun _ => hcode, hresponses⟩
  exact hrecorded.answer ⟨hcode.2, fun _ => rfl⟩

/-! ## The invariant under a command and under a step -/

/-- The effect of a command that the state admits keeps the invariant. -/
theorem effectOf {i : Instr} (hi : s.admits i) : (Machine.effectOf i s).Inv := by
  cases i with
  | new c bits size =>
    obtain ⟨hc, ⟨h1, h32⟩, hcap⟩ := hi
    exact h.build hc (Shape.sound_shapeOf h1 h32 hcap) (List.length_replicate ..)
  | fromValues c bits size =>
    obtain ⟨hc, ⟨h1, h32⟩, hcap, -⟩ := hi
    exact h.build hc (Shape.sound_shapeOf h1 h32 hcap) (State.length_packedWords ..)
  | fromWords c bits size wlen =>
    obtain ⟨hc, ⟨h1, h32⟩, -, hcap, -⟩ := hi
    exact h.build hc (Shape.sound_shapeOf h1 h32 hcap) (by simp)
  | widx c index => exact h
  | get c index => exact h
  | set c index value => exact h.writeSlot hi value
  | getAndSet c index value => exact h.writeSlot hi value
  | getAll c => exact h
  | unpack c =>
    obtain ⟨⟨-, hvalid⟩, hfit⟩ := hi
    have hlen := length_unpackSlots (h.shape_sound hvalid) (s.length_readWords c (s.ctx c).shape.nwords.toNat)
    exact h.vbuf_writeRun (by omega)
  | rawWords c =>
    obtain ⟨-, hfit⟩ := hi
    exact h.wbuf_writeRun (by simpa using hfit)
  | clone d c =>
    obtain ⟨hd, -, hvalid⟩ := hi
    by_cases hdc : d = c
    · subst hdc
      rwa [Machine.effectOf, copyContext_self]
    · rw [Machine.effectOf, copyContext_of_ne s hdc]
      exact h.build hd (h.shape_sound hvalid) (length_readWords ..)

/-- A command keeps the invariant, whether it faults or has its effect. -/
theorem exec {i : Instr} {t : State} (ht : Machine.exec i s = .next t) : t.Inv := by
  obtain ⟨r, -, rfl⟩ | ⟨hnone, rfl⟩ := exec_cases ht
  · exact h.raise r
  · exact (h.effectOf (firstRaise_checksOf_eq_none.1 hnone)).respond _

/-- A reset leaves the state after reset, but for the host's own fields (R230). -/
theorem reset (inputs : List HostAction) :
    State.Inv { resetWith s.cfg (s.resets + 1) with inputs, responses := s.responses } := by
  obtain ⟨hcfg, -, -, -, -, -, -, hresponses⟩ := h
  obtain ⟨-, hctx, hnctx, hvbuf, hwbuf, hclear, hset, -⟩ := inv_resetWith s.cfg (s.resets + 1) hcfg
  exact ⟨hcfg, hctx, hnctx, hvbuf, hwbuf, hclear, hset, hresponses⟩

theorem step {t : State} (ht : Machine.step s = .next t) : t.Inv := by
  obtain ⟨-, rfl⟩ | ⟨cw, rest, i, -, -, hexec⟩ | ⟨cw, rest, e, -, -, rfl⟩ | ⟨a, v, rest, -, ha, rfl⟩ |
    ⟨a, w, rest, -, ha, rfl⟩ | ⟨rest, -, rfl⟩ := step_cases ht
  · exact h
  · exact (h.of_inputs rest).exec hexec
  · exact (h.of_inputs rest).raise _
  · exact (h.of_inputs rest).vbuf_writeRun (vs := [v]) ha
  · exact (h.of_inputs rest).wbuf_writeRun (ws := [w]) ha
  · exact h.reset rest

end State.Inv

end Sys2Proof.Machine

open Sys2Proof Sys2Proof.Machine

/-- Settles O39: what a step can do is said once (`step_cases`), and each of it keeps the invariant; the case that needs
an idea is the slot write, which stays in its context because the word index is the quotient (R137). -/
theorem everyStepKeepsTheInvariant : Obligations.EveryStepKeepsTheInvariant :=
  fun _ _ hinv hstep => hinv.step hstep

end

section
/-! Slots: what the accessors leave in them, what GETALL reads of them, and that a clone shares none with its original
(spec/42_access.md R154, R156; spec/43_bulk.md R171, R174). -/

namespace Sys2Proof

/-- The low 64 bits of a command word do not hold the operand `b`, which stands in the bits from 64 up (R81). -/
theorem extractLsb'_packCommand_eq (op : BitVec 8) (ctx ctx2 : CtxNum) (bitsarg : BitVec 8) (a b b' : Value)
    {lo n : Nat} (h : lo + n ≤ 64) :
    (packCommand op ctx ctx2 bitsarg a b).extractLsb' lo n = (packCommand op ctx ctx2 bitsarg a b').extractLsb' lo n := by
  apply BitVec.eq_of_getLsbD_eq
  intro j hj
  have hlow : lo + j < 64 := by omega
  simp only [BitVec.getLsbD_extractLsb', getLsbD_packCommand, hlow, if_true]

namespace Machine

/-- An illegal command records nothing of its operand `b` (R194). -/
theorem illegalRaise_packCommand_eq (op : BitVec 8) (ctx ctx2 : CtxNum) (bitsarg : BitVec 8) (a b b' : Value) :
    illegalRaise (packCommand op ctx ctx2 bitsarg a b) = illegalRaise (packCommand op ctx ctx2 bitsarg a b') := by
  rw [illegalRaise, illegalRaise, extractLsb'_packCommand_eq op ctx ctx2 bitsarg a b b' (lo := 0) (by norm_num),
    extractLsb'_packCommand_eq op ctx ctx2 bitsarg a b b' (lo := 32) (by norm_num)]

/-- The checks of SET and GETANDSET do not look at the value (R156). -/
theorem checksOf_value_eq (c : CtxNum) (i v v' : Value) (s : State) :
    checksOf (.set c i v) s = checksOf (.set c i v') s ∧
    checksOf (.getAndSet c i v) s = checksOf (.getAndSet c i v') s := by
  constructor <;>
    simp only [checksOf, illegalCheck, Instr.wf, encode, illegalRaise_packCommand_eq _ _ _ _ _ v v']

/-- The depositor sees a value only under the mask (R151, R152 (e)). -/
theorem deposit_eq_of_masked_eq {mask value value' : Word} (h : value &&& mask = value' &&& mask) (word : Word)
    (off : Nat) : deposit word off mask value = deposit word off mask value' := by
  rw [deposit, deposit, h]

theorem State.writeSlot_eq_of_masked_eq {s : State} {c : CtxNum} {v v' : Value}
    (h : v.setWidth 64 &&& (s.ctx c).shape.mask = v'.setWidth 64 &&& (s.ctx c).shape.mask) (i : Value) :
    s.writeSlot c i v = s.writeSlot c i v' := by
  rw [writeSlot, writeSlot, deposit_eq_of_masked_eq h]

/-! ## Reading and writing a slot -/

/-- Read after write: the extractor gives back the masked value that the depositor put there (R152 (a)). -/
theorem extract_deposit {mask : Word} {bits off : Nat} (hmask : mask.toNat = 2 ^ bits - 1) (hoff : off + bits ≤ 64)
    (word value : Word) : extract (deposit word off mask value) off mask = value &&& mask := by
  apply BitVec.eq_of_getLsbD_eq
  intro j _
  rw [getLsbD_extract, getLsbD_deposit, BitVec.getLsbD_and, Nat.add_sub_cancel_left,
    getLsbD_of_mask hmask]
  by_cases hj : j < bits
  · simp [hj, show off + j < 64 by omega]
  · simp [hj]

/-- The slot that the layout gives is the one the extractor reads (R51, R150). -/
theorem State.toNat_extract_eq_slot {cfg : Config} {s : State} {c : CtxNum} (h : (s.ctx c).shape.sound cfg) (k : Nat) :
    (extract (s.readWord c (k / (s.ctx c).shape.vpw.toNat))
      (k % (s.ctx c).shape.vpw.toNat * (s.ctx c).shape.bits.toNat) (s.ctx c).shape.mask).toNat = s.slot c k := by
  obtain ⟨-, hmask, -⟩ := h
  exact toNat_extract hmask _ _

/-- A slot depends on the shape of its context and on one word of it. -/
theorem State.slot_congr {s t : State} {c d : CtxNum} {k : Nat} (hshape : (t.ctx d).shape = (s.ctx c).shape)
    (hword : t.readWord d (k / (s.ctx c).shape.vpw.toNat) = s.readWord c (k / (s.ctx c).shape.vpw.toNat)) :
    t.slot d k = s.slot c k := by
  simp only [slot, hshape, hword]

/-- A written slot holds the low BITS bits of the value (R154). -/
theorem State.Inv.slot_writeSlot_self {s : State} (h : s.Inv) {c : CtxNum} (hvalid : (s.ctx c).valid = true)
    {i : Value} (hi : i.toNat < (s.ctx c).shape.size.toNat) (v : Value) :
    (s.writeSlot c i v).slot c i.toNat = v.toNat % 2 ^ (s.ctx c).shape.bits.toNat := by
  have hsh := h.shape_sound hvalid
  have ⟨hcfg, _⟩ := h
  have ⟨_, hmask, _⟩ := hsh
  have hword : (s.writeSlot c i v).readWord c (i.toNat / (s.ctx c).shape.vpw.toNat) =
      deposit (s.slotWord c i) (i.toNat % (s.ctx c).shape.vpw.toNat * (s.ctx c).shape.bits.toNat)
        (s.ctx c).shape.mask (v.setWidth 64) := by
    rw [State.writeSlot, readWord_writeWord, hsh.wordIndex_eq_div hcfg hi, hsh.bitOffset_eq hcfg hi, if_pos ⟨rfl, rfl⟩]
  have hsound : ((s.writeSlot c i v).ctx c).shape.sound s.cfg := shape_writeSlot s c c i v ▸ hsh
  rw [← toNat_extract_eq_slot hsound, shape_writeSlot, hword, extract_deposit hmask (hsh.slot_ends_in_word _),
    toNat_and_mask hmask, BitVec.toNat_setWidth_of_le (by norm_num)]

theorem State.readWord_writeSlot_of_ne (s : State) {c d : CtxNum} (h : d ≠ c) (i v : Value) (w : Nat) :
    (s.writeSlot c i v).readWord d w = s.readWord d w := by
  rw [writeSlot, readWord_writeWord, if_neg fun hboth => h hboth.1]

/-- A slot write leaves the slots of every other context (R20). -/
theorem State.slot_writeSlot_of_ne (s : State) {c d : CtxNum} (h : d ≠ c) (i v : Value) (k : Nat) :
    (s.writeSlot c i v).slot d k = s.slot d k :=
  slot_congr (shape_writeSlot s c d i v) (readWord_writeSlot_of_ne s h i v _)

/-- What GETALL gives of a sound context: the value of every slot, in index order (R171). -/
theorem State.emitSlots_eq_slots {cfg : Config} {s : State} {c : CtxNum} (h : (s.ctx c).shape.sound cfg) :
    emitSlots (s.ctx c).shape (s.readWords c (s.ctx c).shape.nwords.toNat) (s.ctx c).shape.size.toNat =
      (List.range (s.ctx c).shape.size.toNat).map fun k => BitVec.ofNat 32 (s.slot c k) := by
  obtain ⟨hv, -, -⟩ := h.vpw_range
  apply List.ext_getElem
  · rw [length_emitSlots, length_readWords, Nat.min_eq_right h.size_bounds.1, List.length_map, List.length_range]
  · intro k hk hk'
    have hsize : k < (s.ctx c).shape.size.toNat := by simpa using hk'
    rw [getElem_emitSlots _ _ _ _ (by omega) hk (by simpa using h.div_vpw_lt_nwords hsize), getElem_readWords,
      List.getElem_map, List.getElem_range, ← toNat_extract_eq_slot h k, BitVec.ofNat_toNat]

/-- A clone's slot is the original's (R174). -/
theorem State.slot_build_copy {cfg : Config} {s : State} {c : CtxNum} (h : (s.ctx c).shape.sound cfg) (d : CtxNum)
    {k : Nat} (hk : k < (s.ctx c).shape.size.toNat) :
    (s.build d (s.ctx c).shape (s.readWords c (s.ctx c).shape.nwords.toNat)).slot d k = s.slot c k := by
  have hword := h.div_vpw_lt_nwords hk
  refine slot_congr (by rw [ctx_build_self]) ?_
  rw [readWord_build_self _ _ _ _ (by rwa [length_readWords]), getElem_readWords]

theorem State.slot_build_of_ne (s : State) {c d : CtxNum} (h : d ≠ c) (sh : Shape) (words : List Word) (k : Nat) :
    (s.build c sh words).slot d k = s.slot d k :=
  slot_congr (by rw [ctx_build_of_ne s h]) (readWord_build_of_ne s h _ _ _)

/-- The frame of a command that has its effect and responds. -/
theorem endedOk_effectOf (i : Instr) (s : State) (d : BitVec 64) : EndedOk s ((effectOf i s).respond d) d := by
  obtain ⟨hresponses, hfault, hecode, heinfo0, heinfo1, hcfg, hinputs, hresets⟩ := effectOf_frame i s
  exact ⟨congrArg (· ++ [_]) hresponses, ⟨hfault, hecode, heinfo0, heinfo1⟩, hcfg, hinputs, hresets⟩

end Machine

end Sys2Proof

open Sys2Proof Sys2Proof.Machine

/-- Settles O32: the value is read in one place, under the mask, by the depositor; an illegal command records only the
low 64 bits of its word, where the value does not stand. -/
theorem discardedValueBitsLeaveNoTrace : Obligations.DiscardedValueBitsLeaveNoTrace := by
  intro s c i v v' hmasked
  have hwrite := State.writeSlot_eq_of_masked_eq hmasked i
  obtain ⟨hset, hgetAndSet⟩ := checksOf_value_eq c i v v' s
  constructor
  · rw [exec_eq, exec_eq, hset]
    simp only [effectOf, dataOf, hwrite]
  · rw [exec_eq, exec_eq, hgetAndSet]
    simp only [effectOf, dataOf, hwrite]

/-- Settles O33: the beats are the slots (`State.emitSlots_eq_slots`), and `emit` is all GETALL does. -/
theorem getAllEmitsEverySlotInOrder : Obligations.GetAllEmitsEverySlotInOrder := by
  intro s c hinv huse
  have hslots := State.emitSlots_eq_slots (hinv.shape_sound huse.2)
  exact ⟨_, exec_of_admits (i := .getAll c) huse, congrArg (s.cb ++ ·) hslots, endedOk_effectOf (.getAll c) s _,
    fun _ => rfl, fun _ => rfl, fun _ => rfl⟩

/-- Settles O38: CLONE builds the destination as a context of its own, in which and in whose original the slot `i` is
accessible; a slot write leaves the slots of every context but its own. -/
theorem cloneIsIsolated : Obligations.CloneIsIsolated := by
  intro s d c i v hinv hacc hd hdc
  obtain ⟨⟨hc, hvalid⟩, hi⟩ := hacc
  have hsh := hinv.shape_sound hvalid
  have hclone := exec_of_admits (i := .clone d c) (s := s) ⟨hd, hc, hvalid⟩
  have htinv := hinv.exec hclone
  rw [effectOf, State.copyContext_of_ne s hdc] at hclone htinv
  generalize ht : (s.build d (s.ctx c).shape (s.readWords c (s.ctx c).shape.nwords.toNat)).respond _ = t at hclone htinv
  have htcfg : t.cfg = s.cfg := ht ▸ rfl
  have htd : (t.ctx d).valid = true ∧ (t.ctx d).shape = (s.ctx c).shape := by simp [← ht]
  have htc : t.ctx c = s.ctx c := by simp [← ht, State.ctx_build_of_ne s hdc.symm]
  have hdaccess : t.accessible d i := ⟨⟨htcfg ▸ hd, htd.1⟩, htd.2 ▸ hi⟩
  have hcaccess : t.accessible c i := ⟨⟨htcfg ▸ hc, htc ▸ hvalid⟩, htc ▸ hi⟩
  refine ⟨t, _, _, hclone, exec_of_admits (i := .set d i v) hdaccess, exec_of_admits (i := .set c i v) hcaccess,
    fun k => ?original, fun k hk => ?clone, ?written⟩
  case original =>
    calc (t.writeSlot d i v).slot c k = t.slot c k := State.slot_writeSlot_of_ne t hdc.symm i v k
      _ = s.slot c k := ht ▸ State.slot_build_of_ne s hdc.symm _ _ k
  case clone =>
    calc (t.writeSlot c i v).slot d k = t.slot d k := State.slot_writeSlot_of_ne t hdc i v k
      _ = s.slot c k := ht ▸ State.slot_build_copy hsh d hk
  case written =>
    calc (t.writeSlot d i v).slot d i.toNat = v.toNat % 2 ^ (t.ctx d).shape.bits.toNat :=
          htinv.slot_writeSlot_self htd.1 hdaccess.2 v
      _ = v.toNat % 2 ^ (s.ctx c).shape.bits.toNat := by rw [htd.2]

end

section
/-! What a command and a step leave unchanged: the position, the contexts, the registers and the spaces
(spec/10_state.md R20, R27, R34, R37; spec/20_memory.md R63). -/

namespace Sys2Proof.Machine

/-- A command, faulting or not, gives one response (R34). -/
theorem position_exec {i : Instr} {s t : State} (h : exec i s = .next t) : t.position = s.position + 1 := by
  obtain ⟨r, -, rfl⟩ | ⟨-, rfl⟩ := exec_cases h
  · simp [State.position]
  · obtain ⟨hresponses, -⟩ := effectOf_frame i s
    simp [State.position, hresponses]

/-- A command leaves every context but its target (R20). -/
theorem ctx_exec_of_ne {i : Instr} {s t : State} (h : exec i s = .next t) {d : CtxNum} (hd : d ≠ i.target) :
    t.ctx d = s.ctx d := by
  obtain ⟨r, -, rfl⟩ | ⟨-, rfl⟩ := exec_cases h
  · rfl
  · exact effectOf_ctx_of_ne i s hd

/-- An effect that is no construction and no copy leaves VALID and the shape registers (R27). -/
theorem effectOf_registers {i : Instr}
    (h : i.mnemonic ∈ ["GET", "SET", "GETANDSET", "WIDX", "GETALL", "UNPACK", "RAWWORDS"]) (s : State) (d : CtxNum) :
    ((effectOf i s).ctx d).valid = (s.ctx d).valid ∧ ((effectOf i s).ctx d).shape = (s.ctx d).shape := by
  cases i with
  | new _ _ _ | fromValues _ _ _ | fromWords _ _ _ _ | clone _ _ => simp [Instr.mnemonic] at h
  | set c index value | getAndSet c index value =>
    exact ⟨State.valid_writeSlot s c d index value, State.shape_writeSlot s c d index value⟩
  | widx _ _ | get _ _ | getAll _ | unpack _ | rawWords _ => exact ⟨rfl, rfl⟩

/-- The five operations that only read the contexts leave every one of them (R37). -/
theorem effectOf_ctx_of_reads {i : Instr} (h : i.mnemonic ∈ ["WIDX", "GET", "GETALL", "UNPACK", "RAWWORDS"])
    (s : State) (d : CtxNum) : (effectOf i s).ctx d = s.ctx d := by
  cases i with
  | new _ _ _ | fromValues _ _ _ | fromWords _ _ _ _ | set _ _ _ | getAndSet _ _ _ | clone _ _ =>
    simp [Instr.mnemonic] at h
  | widx _ _ | get _ _ | getAll _ | unpack _ | rawWords _ => rfl

/-- CLONE writes no staging buffer and gives no beat (R174). -/
theorem State.copyContext_buffers (s : State) (d c : CtxNum) :
    (s.copyContext d c).vbuf = s.vbuf ∧ (s.copyContext d c).wbuf = s.wbuf ∧ (s.copyContext d c).cb = s.cb := by
  unfold copyContext
  split <;> exact ⟨rfl, rfl, rfl⟩

/-- VBUF, WBUF and CB have one writer each (R37). -/
theorem effectOf_buffers (i : Instr) (s : State) :
    (i.mnemonic ≠ "UNPACK" → (effectOf i s).vbuf = s.vbuf) ∧
    (i.mnemonic ≠ "RAWWORDS" → (effectOf i s).wbuf = s.wbuf) ∧
    (i.mnemonic ≠ "GETALL" → (effectOf i s).cb = s.cb) := by
  cases i with
  | unpack c => exact ⟨fun hne => absurd rfl hne, fun _ => rfl, fun _ => rfl⟩
  | rawWords c => exact ⟨fun _ => rfl, fun hne => absurd rfl hne, fun _ => rfl⟩
  | getAll c => exact ⟨fun _ => rfl, fun _ => rfl, fun hne => absurd rfl hne⟩
  | clone d c =>
    obtain ⟨hvbuf, hwbuf, hcb⟩ := s.copyContext_buffers d c
    exact ⟨fun _ => hvbuf, fun _ => hwbuf, fun _ => hcb⟩
  | new _ _ _ | fromValues _ _ _ | fromWords _ _ _ _ | widx _ _ | get _ _ | set _ _ _ | getAndSet _ _ _ =>
    exact ⟨fun _ => rfl, fun _ => rfl, fun _ => rfl⟩

theorem step_writeValue {s : State} {a : Nat} {v : Value} {rest : List HostAction}
    (h : s.inputs = .writeValue a v :: rest) (ha : a < s.cfg.vbufLen) :
    step s = .next { s with inputs := rest, vbuf := s.vbuf.write a v } := by
  simp [step, h, hostWriteValue, ha]

theorem step_writeWord {s : State} {a : Nat} {w : Word} {rest : List HostAction}
    (h : s.inputs = .writeWord a w :: rest) (ha : a < s.cfg.wbufLen) :
    step s = .next { s with inputs := rest, wbuf := s.wbuf.write a w } := by
  simp [step, h, hostWriteWord, ha]

end Sys2Proof.Machine

open Sys2Proof Sys2Proof.Machine

/-- Settles O43: a command gives one response, whether it is legal, faults or is no operation at all; nothing else gives
one. -/
theorem positionAdvancesByOnePerCommand : Obligations.PositionAdvancesByOnePerCommand := by
  intro s t hstep
  obtain ⟨hin, rfl⟩ | ⟨cw, rest, i, hin, -, hexec⟩ | ⟨cw, rest, e, hin, -, rfl⟩ | ⟨a, v, rest, hin, -, rfl⟩ |
    ⟨a, w, rest, hin, -, rfl⟩ | ⟨rest, hin, rfl⟩ := step_cases hstep <;> rw [hin]
  · rfl
  · exact (position_exec hexec).trans rfl
  · simp [State.position]
  · rfl
  · rfl
  · rfl

/-- Settles O44: fault entry writes no context, and of the effects only a construction and a copy write registers. -/
theorem commandTouchesOnlyItsContext : Obligations.CommandTouchesOnlyItsContext := by
  intro i s t hexec
  refine ⟨fun d hd => ctx_exec_of_ne hexec hd, fun hmem d => ?_⟩
  obtain ⟨r, -, rfl⟩ | ⟨-, rfl⟩ := exec_cases hexec
  · exact ⟨rfl, rfl⟩
  · exact effectOf_registers hmem s d

/-- Settles O45: fault entry writes none of the spaces, and each effect only those of its row. -/
theorem spacesAreWrittenOnlyAsTabled : Obligations.SpacesAreWrittenOnlyAsTabled := by
  intro i s t hexec
  obtain ⟨r, -, rfl⟩ | ⟨-, rfl⟩ := exec_cases hexec
  · exact ⟨fun _ => rfl, fun _ => rfl, fun _ => rfl, fun _ _ => rfl, rfl, rfl, rfl⟩
  · obtain ⟨hvbuf, hwbuf, hcb⟩ := effectOf_buffers i s
    obtain ⟨-, -, -, -, -, hcfg, hinputs, hresets⟩ := effectOf_frame i s
    exact ⟨hvbuf, hwbuf, hcb, fun hmem d => congrArg Context.words (effectOf_ctx_of_reads hmem s d), hcfg, hinputs,
      hresets⟩

/-- Settles O49: the step is the write of one cell, which a read finds there and nowhere else. -/
theorem hostWritesOneStagingCell : Obligations.HostWritesOneStagingCell := by
  intro s rest a
  constructor
  · intro v hin ha
    refine ⟨_, step_writeValue hin ha, ?_, fun b hb => ?_, rfl⟩
    · simp [State.readValue, Memory.read?_write]
    · simp [State.readValue, Memory.read?_write, hb]
  · intro w hin ha
    refine ⟨_, step_writeWord hin ha, ?_, fun b hb => ?_, rfl⟩
    · simp [State.readStaged, Memory.read?_write]
    · simp [State.readStaged, Memory.read?_write, hb]

/-- Settles O5: it is how `step` reads a command that decodes. -/
theorem stepRunsDecodedCommand : Obligations.StepRunsDecodedCommand :=
  fun _ _ _ _ hin hdecode => step_command hin hdecode

/-- Settles O41: every context is the reset one, which is not valid, and the other fields are what R38 tables. -/
theorem resetLeavesTheTabledValues : Obligations.ResetLeavesTheTabledValues :=
  fun cfg n => ⟨fun c => congrArg Context.valid (State.resetWith_ctx cfg n c), rfl, rfl, rfl, rfl, rfl⟩

end

section
/-! Noninterference: what a command does does not depend on a context that it does not name, nor on what an invalid
context holds (spec/10_state.md R20, R38; spec/60_exceptions.md R195). -/

namespace Sys2Proof.Machine

namespace State

variable (s : State) {c d : CtxNum}

theorem setCtx_comm (h : d ≠ c) (x y : Context) : (s.setCtx d x).setCtx c y = (s.setCtx c y).setCtx d x := by
  have hne : d.toNat ≠ c.toNat := fun heq => h (BitVec.eq_of_toNat_eq heq)
  simp only [setCtx, Vector.set_comm x y hne]

theorem setCtx_setCtx_self (x y : Context) : (s.setCtx c x).setCtx c y = s.setCtx c y := by
  simp only [setCtx, Vector.set_set]

theorem readWord_setCtx_of_ne (h : d ≠ c) (x : Context) (w : Nat) :
    (s.setCtx d x).readWord c w = s.readWord c w := by
  simp [readWord, ctx_setCtx_of_ne s h.symm]

theorem readWords_setCtx_of_ne (h : d ≠ c) (x : Context) (n : Nat) :
    (s.setCtx d x).readWords c n = s.readWords c n :=
  List.map_congr_left fun w _ => readWord_setCtx_of_ne s h x w

theorem slotWord_setCtx_of_ne (h : d ≠ c) (x : Context) (i : Value) :
    (s.setCtx d x).slotWord c i = s.slotWord c i := by
  rw [slotWord, ctx_setCtx_of_ne s h.symm, readWord_setCtx_of_ne s h, slotWord]

theorem slotValue_setCtx_of_ne (h : d ≠ c) (x : Context) (i : Value) :
    (s.setCtx d x).slotValue c i = s.slotValue c i := by
  rw [slotValue, slotWord_setCtx_of_ne s h, ctx_setCtx_of_ne s h.symm, slotValue]

theorem writeSlot_setCtx_of_ne (h : d ≠ c) (x : Context) (i v : Value) :
    (s.setCtx d x).writeSlot c i v = (s.writeSlot c i v).setCtx d x := by
  simp only [writeSlot, writeWord, slotWord_setCtx_of_ne s h, ctx_setCtx_of_ne s h.symm]
  exact setCtx_comm s h x _

theorem build_setCtx_of_ne (h : d ≠ c) (x : Context) (sh : Shape) (words : List Word) :
    (s.setCtx d x).build c sh words = (s.build c sh words).setCtx d x :=
  setCtx_comm s h x _

theorem build_setCtx_self (x : Context) (sh : Shape) (words : List Word) :
    (s.setCtx c x).build c sh words = s.build c sh words :=
  setCtx_setCtx_self s x _

end State

/-- The checks of a command look at the parameters and at the context it reads, no other. -/
theorem checksOf_setCtx {i : Instr} (s : State) {d : CtxNum} (x : Context) (h : i.source ≠ some d) :
    checksOf i (s.setCtx d x) = checksOf i s := by
  cases i with
  | new _ _ _ | fromValues _ _ _ | fromWords _ _ _ _ => rfl
  | widx c _ | get c _ | set c _ _ | getAndSet c _ _ | getAll c | unpack c | rawWords c | clone _ c =>
    have hcd : c ≠ d := fun heq => h (congrArg some heq)
    simp only [checksOf, illegalCheck, instanceCheck, indexCheck, State.ctx_setCtx_of_ne s hcd, State.setCtx_cfg]

/-- The response of a command comes from its operands and from the context it reads. -/
theorem dataOf_setCtx {i : Instr} (s : State) {d : CtxNum} (x : Context) (h : i.source ≠ some d) :
    dataOf i (s.setCtx d x) = dataOf i s := by
  cases i with
  | new _ _ _ | fromValues _ _ _ | fromWords _ _ _ _ => rfl
  | widx c _ | get c _ | set c _ _ | getAndSet c _ _ | getAll c | unpack c | rawWords c | clone _ c =>
    have hcd : c ≠ d := fun heq => h (congrArg some heq)
    simp only [dataOf, State.slotValue_setCtx_of_ne s hcd.symm, State.ctx_setCtx_of_ne s hcd]

/-- An effect commutes with the replacement of a context that the command does not name. A constructor's words come from
the staging buffers or are 0, so they are the same by definition. -/
theorem effectOf_setCtx {i : Instr} (s : State) {d : CtxNum} (x : Context) (htarget : d ≠ i.target)
    (hsource : i.source ≠ some d) : effectOf i (s.setCtx d x) = (effectOf i s).setCtx d x := by
  cases i with
  | new c _ _ => exact State.build_setCtx_of_ne s htarget x _ _
  | fromValues c _ _ => exact State.build_setCtx_of_ne s htarget x _ _
  | fromWords c _ _ _ => exact State.build_setCtx_of_ne s htarget x _ _
  | widx c _ | get c _ => rfl
  | set c i v | getAndSet c i v => exact State.writeSlot_setCtx_of_ne s htarget x i v
  | getAll c | unpack c | rawWords c =>
    have hdc : d ≠ c := htarget
    simp only [effectOf, State.ctx_setCtx_of_ne s hdc.symm, State.readWords_setCtx_of_ne s hdc]
    rfl
  | clone e c =>
    have hdc : d ≠ c := fun heq => hsource (congrArg some heq.symm)
    by_cases hec : e = c
    · subst hec
      simp only [effectOf, State.copyContext_self]
    · simp only [effectOf, State.copyContext_of_ne _ hec, State.ctx_setCtx_of_ne s hdc.symm,
        State.readWords_setCtx_of_ne s hdc]
      exact State.build_setCtx_of_ne s htarget x _ _

/-- A command that writes a context without reading it makes it a valid one, of which nothing before survives (R116,
R174). -/
theorem effectOf_overwrites {i : Instr} (s : State) (x : Context) (h : i.source ≠ some i.target) :
    ((effectOf i s).ctx i.target).valid = true ∧ effectOf i (s.setCtx i.target x) = effectOf i s := by
  cases i with
  | new c _ _ | fromValues c _ _ | fromWords c _ _ _ =>
    exact ⟨congrArg Context.valid (State.ctx_build_self s c _ _), State.build_setCtx_self s x _ _⟩
  | widx c _ | get c _ | set c _ _ | getAndSet c _ _ | getAll c | unpack c | rawWords c => exact absurd rfl h
  | clone d c =>
    have hdc : d ≠ c := fun heq => h (congrArg some heq.symm)
    simp only [effectOf, Instr.target, State.copyContext_of_ne _ hdc, State.ctx_setCtx_of_ne s hdc.symm,
      State.readWords_setCtx_of_ne s hdc]
    exact ⟨congrArg Context.valid (State.ctx_build_self s d _ _), State.build_setCtx_self s x _ _⟩

/-- A command does the same whatever a context holds that it does not name. -/
theorem exec_setCtx {i : Instr} {s t : State} {d : CtxNum} (x : Context) (htarget : d ≠ i.target)
    (hsource : i.source ≠ some d) (h : exec i s = .next t) : exec i (s.setCtx d x) = .next (t.setCtx d x) := by
  have hchecks := checksOf_setCtx s x hsource
  obtain ⟨r, hr, rfl⟩ | ⟨hnone, rfl⟩ := exec_cases h
  · exact exec_of_some (hchecks ▸ hr)
  · rw [exec_of_none (hchecks ▸ hnone), effectOf_setCtx s x htarget hsource, dataOf_setCtx s x hsource]
    rfl

/-- The second check of a command that reads a context is that it is valid (R202). -/
theorem checksOf_source {i : Instr} {d : CtxNum} (h : i.source = some d) (s : State) :
    ∃ rest, checksOf i s = illegalCheck i s :: instanceCheck d s :: rest := by
  cases i with
  | new _ _ _ | fromValues _ _ _ | fromWords _ _ _ _ => nomatch h
  | widx c _ | get c _ | set c _ _ | getAndSet c _ _ | getAll c | unpack c | rawWords c | clone _ c =>
    obtain rfl := Option.some.inj h
    exact ⟨_, rfl⟩

/-- A command that reads an invalid context faults, and not by anything that the context holds (R157, R170, R195). -/
theorem firstRaise_of_source_invalid {i : Instr} {s : State} {d : CtxNum} (h : i.source = some d)
    (hinvalid : (s.ctx d).valid = false) :
    firstRaise (checksOf i s) =
      some (if i.wf s.cfg then { cause := .noInstance, info0 := d.toNat, info1 := 0 } else illegalRaise (encode i)) := by
  obtain ⟨rest, hchecks⟩ := checksOf_source h s
  rw [hchecks, illegalCheck, instanceCheck, firstRaise_cons, firstRaise_cons, hinvalid]
  cases i.wf s.cfg <;> rfl

end Sys2Proof.Machine

open Sys2Proof Sys2Proof.Machine

/-- Settles O46: checks, effect and response of a command depend on no context that it does not name (`exec_setCtx`). -/
theorem contextsShareNothing : Obligations.ContextsShareNothing :=
  fun _ _ _ _ x htarget hsource hexec => exec_setCtx x htarget hsource hexec

/-- Settles O47: a command that reads the invalid context faults, in the state it found; one that only writes it leaves
a new one in its place; any other does not name it. -/
theorem invalidContentsAreNeverObserved : Obligations.InvalidContentsAreNeverObserved := by
  intro i s t d x hinvalid hx hexec
  by_cases hsource : i.source = some d
  · have hx' : ((s.setCtx d x).ctx d).valid = false := by rw [State.ctx_setCtx_self, hx]
    have hraise := firstRaise_of_source_invalid hsource hinvalid
    obtain rfl : s.raise _ = t := Host.Outcome.next.inj (exec_of_some hraise ▸ hexec)
    exact ⟨fun hvalid => absurd (hinvalid ▸ hvalid) Bool.false_ne_true,
      fun _ => exec_of_some (firstRaise_of_source_invalid hsource hx')⟩
  by_cases htarget : d = i.target
  · subst htarget
    have hchecks := checksOf_setCtx s x hsource
    obtain ⟨hvalid, heffect⟩ := effectOf_overwrites s x hsource
    obtain ⟨r, hr, rfl⟩ | ⟨hnone, rfl⟩ := exec_cases hexec
    · exact ⟨fun hvalid => absurd (hinvalid ▸ hvalid) Bool.false_ne_true, fun _ => exec_of_some (hchecks ▸ hr)⟩
    · refine ⟨fun _ => ?_, fun hno => absurd (hno ▸ hvalid) Bool.false_ne_true⟩
      rw [exec_of_none (hchecks ▸ hnone), heffect, dataOf_setCtx s x hsource]
  · have hsame : (t.ctx d).valid = false := ctx_exec_of_ne hexec htarget ▸ hinvalid
    exact ⟨fun hvalid => absurd (hsame ▸ hvalid) Bool.false_ne_true, fun _ => exec_setCtx x htarget hsource hexec⟩

end

section
/-! What the accessors, the constructors and RAWWORDS leave in the memories, and when a step completes
(spec/20_memory.md R51, R53, R66; spec/40_construct.md R113, R114; spec/42_access.md R153 to R155; spec/43_bulk.md
R173; spec/70_reset_and_hazards.md R234). -/

namespace Sys2Proof.Machine

/-! ## Reading and writing one slot -/

/-- GET's datapath gives the slot of the layout (R51, R153). -/
theorem State.Inv.slotValue_eq_slot {s : State} (h : s.Inv) {c : CtxNum} {i : Value} (hacc : s.accessible c i) :
    s.slotValue c i = BitVec.ofNat 64 (s.slot c i.toNat) := by
  obtain ⟨⟨-, hvalid⟩, hi⟩ := hacc
  have hsh := h.shape_sound hvalid
  have ⟨hcfg, _⟩ := h
  rw [slotValue, slotWord, hsh.wordIndex_eq_div hcfg hi, hsh.bitOffset_eq hcfg hi, ← toNat_extract_eq_slot hsh,
    BitVec.ofNat_toNat, BitVec.setWidth_eq]

/-- The depositor leaves every bit outside the slot (R53, R151). -/
theorem getLsbD_deposit_of_outside {mask : Word} {bits off j : Nat} (hmask : mask.toNat = 2 ^ bits - 1)
    (hj : j < off ∨ off + bits ≤ j) (word value : Word) :
    (deposit word off mask value).getLsbD j = word.getLsbD j := by
  rw [getLsbD_deposit, getLsbD_of_mask hmask, if_neg]
  rintro ⟨hoff, -, hbits⟩
  have := of_decide_eq_true hbits
  omega

/-- A slot write writes the slot and nothing else of its context (R154). -/
theorem State.Inv.slotWritten_writeSlot {s : State} (h : s.Inv) {c : CtxNum} {i : Value} (hacc : s.accessible c i)
    (v : Value) : slotWritten s (s.writeSlot c i v) c i v := by
  obtain ⟨⟨-, hvalid⟩, hi⟩ := hacc
  have ⟨_, hmask, _⟩ := h.shape_sound hvalid
  refine ⟨h.slot_writeSlot_self hvalid hi v, fun j hj => ?otherBits, fun w hw => ?otherWords,
    valid_writeSlot s c c i v, shape_writeSlot s c c i v⟩
  case otherBits =>
    rw [State.writeSlot, readWord_writeWord, if_pos ⟨rfl, rfl⟩, getLsbD_deposit_of_outside hmask hj, slotWord]
  case otherWords =>
    rw [State.writeSlot, readWord_writeWord, if_neg fun hboth => hw hboth.2]

/-! ## Building a context -/

/-- `Shape(bits, size)` has the number of words that the rules count (R25, R110). -/
theorem nwords_shapeOf {bits : BitVec 8} (h1 : 1 ≤ bits.toNat) (h32 : bits.toNat ≤ 32) (size : Value) :
    (shapeOf bits.toNat size.toNat).nwords.toNat = ceilWords bits.toNat size.toNat := by
  obtain ⟨-, -, -, -, hnwords, -⟩ := shapeOf_toNat h1 h32 size.isLt
  exact hnwords

/-- A context built with a legal shape is valid and has its width and size (R27, R110, R116). -/
theorem builtAs_build {cfg : Config} {bits : BitVec 8} {size : Value} (h1 : 1 ≤ bits.toNat) (h32 : bits.toNat ≤ 32)
    (hcap : (shapeOf bits.toNat size.toNat).nwords.toNat ≤ cfg.wordsCap) (s : State) (c : CtxNum)
    (words : List Word) : builtAs cfg ((s.build c (shapeOf bits.toNat size.toNat) words).ctx c) bits size := by
  obtain ⟨hsize, hbits, -⟩ := shapeOf_toNat h1 h32 size.isLt
  rw [State.ctx_build_self]
  exact ⟨rfl, Shape.sound_shapeOf h1 h32 hcap, hbits, BitVec.eq_of_toNat_eq hsize⟩

namespace State

/-- A group is full, but for the last ones, which hold what the size leaves (R113). -/
theorem length_groupValues_eq_min (s : State) (sh : Shape) (w : Nat) :
    (s.groupValues sh w).length = min sh.vpw.toNat (sh.size.toNat - w * sh.vpw.toNat) := by
  rw [length_groupValues]
  omega

section

variable {cfg : Config} {sh : Shape} (h : sh.sound cfg) (s : State) (c : CtxNum)
include h

/-- A group fits its word (R55). -/
theorem groupValues_fit (w : Nat) : (s.groupValues sh w).length * sh.bits.toNat ≤ 64 := by
  obtain ⟨-, -, hfit⟩ := h.vpw_range
  rw [length_groupValues_eq_min]
  exact (Nat.mul_le_mul_right _ (Nat.min_le_left ..)).trans hfit

/-- A packed word is 0 above the values of its group: its padding bits and padding slots (R51, R113). -/
theorem packGroup_groupValues_lt (w : Nat) :
    (packGroup sh (s.groupValues sh w)).toNat <
      2 ^ (sh.bits.toNat * min sh.vpw.toNat (sh.size.toNat - w * sh.vpw.toNat)) := by
  have ⟨_, hmask, _⟩ := h
  rw [← length_groupValues_eq_min]
  exact (packGroup_spec sh hmask _ (groupValues_fit h s w)).1

/-- A context built from packed words holds in each slot the low BITS bits of its VBUF cell (R113). -/
theorem slot_build_packedWords {k : Nat} (hk : k < sh.size.toNat) :
    (s.build c sh (s.packedWords sh)).slot c k = (s.readValue k).toNat % 2 ^ sh.bits.toNat := by
  have ⟨_, hmask, _⟩ := h
  obtain ⟨hv, -, -⟩ := h.vpw_range
  have hword := h.div_vpw_lt_nwords hk
  have hcell : k / sh.vpw.toNat * sh.vpw.toNat + k % sh.vpw.toNat = k := Nat.div_add_mod' k _
  have hplace : k % sh.vpw.toNat < (s.groupValues sh (k / sh.vpw.toNat)).length := by
    have := Nat.mod_lt k (show 0 < sh.vpw.toNat by omega)
    rw [length_groupValues_eq_min]
    omega
  simp only [slot, ctx_build_self]
  rw [readWord_build_self _ _ _ _ (by rwa [length_packedWords]), getElem_packedWords,
    (packGroup_spec sh hmask _ (groupValues_fit h s _)).2 _ hplace, getElem_groupValues, hcell]

end

end State

/-! ## A step that resets, and a host write to no cell -/

theorem step_reset {s : State} {rest : List HostAction} (h : s.inputs = .reset :: rest) :
    step s = hostReset { s with inputs := rest } := by simp [step, h]

theorem step_writeValue_of_noCell {s : State} {a : Nat} {v : Value} {rest : List HostAction}
    (h : s.inputs = .writeValue a v :: rest) (ha : s.cfg.vbufLen ≤ a) : step s = .fault (.noValueCell a) := by
  simp [step, h, hostWriteValue, Nat.not_lt.2 ha]

theorem step_writeWord_of_noCell {s : State} {a : Nat} {w : Word} {rest : List HostAction}
    (h : s.inputs = .writeWord a w :: rest) (ha : s.cfg.wbufLen ≤ a) : step s = .fault (.noWordCell a) := by
  simp [step, h, hostWriteWord, Nat.not_lt.2 ha]

end Sys2Proof.Machine

open Sys2Proof Sys2Proof.Machine

/-- Settles O18: the packed words hold the masked cells side by side and nothing above them (`packGroup_spec`), and
word `k / VPW` holds the cell `k`. -/
theorem fromValuesPacksMaskedValues : Obligations.FromValuesPacksMaskedValues := by
  intro s c bits size hc h1 h32 hcap hfit
  have hnwords := nwords_shapeOf h1 h32 size
  have hcap' := hnwords.trans_le hcap
  have hsh := Shape.sound_shapeOf h1 h32 hcap'
  obtain ⟨hsize, hbits, -, hvpw, -⟩ := shapeOf_toNat h1 h32 size.isLt
  refine ⟨_, exec_of_admits (i := .fromValues c bits size) ⟨hc, ⟨h1, h32⟩, hcap', hfit⟩,
    builtAs_build h1 h32 hcap' s c _, fun i hi => ?slots, fun w hw => ?padding, ?ended,
    ⟨fun _ => rfl, fun _ => rfl, rfl⟩, fun d hd => State.ctx_build_of_ne s hd _ _⟩
  case slots => exact (State.slot_build_packedWords hsh s c (hsize.symm ▸ hi)).trans (by rw [hbits])
  case padding =>
    have hlt := State.packGroup_groupValues_lt hsh s w
    rw [hbits, hvpw, hsize, valuesPerWord] at hlt
    simpa [effectOf, State.readWord_build_self, hnwords, hw, State.getElem_packedWords] using hlt
  case ended =>
    rw [← hnwords, BitVec.ofNat_toNat]
    exact endedOk_effectOf (.fromValues c bits size) s _

/-- Settles O19: the context is built from the staged words themselves. -/
theorem fromWordsTakesWordsVerbatim : Obligations.FromWordsTakesWordsVerbatim := by
  intro s c bits size wlen hc h1 h32 hlen hcap hfit
  have hnwords := nwords_shapeOf h1 h32 size
  have hcap' := hnwords.trans_le hcap
  have hwlen : wlen = (shapeOf bits.toNat size.toNat).nwords := BitVec.eq_of_toNat_eq (hlen.trans hnwords.symm)
  refine ⟨_, exec_of_admits (i := .fromWords c bits size wlen)
      ⟨hc, ⟨h1, h32⟩, congrArg BitVec.toNat hwlen, hcap', hfit⟩,
    builtAs_build h1 h32 hcap' s c _, fun w hw => ?words, hwlen ▸ endedOk_effectOf (.fromWords c bits size wlen) s _,
    ⟨fun _ => rfl, fun _ => rfl, rfl⟩, fun d hd => State.ctx_build_of_ne s hd _ _⟩
  case words =>
    have hw' : w < (shapeOf bits.toNat size.toNat).nwords.toNat := hwlen ▸ hw
    simp [effectOf, State.readWord_build_self, hw']

/-- Settles O26: under the invariant the indexer and the extractor read the slot of the layout. -/
theorem getAnswersTheSlot : Obligations.GetAnswersTheSlot := by
  intro s c i hinv hacc
  refine ⟨_, exec_of_admits (i := .get c i) hacc, ?ended, fun _ => rfl, fun _ => rfl, fun _ => rfl, rfl⟩
  case ended =>
    rw [← hinv.slotValue_eq_slot hacc]
    exact endedOk_effectOf (.get c i) s _

/-- Settles O27: the effect is the slot write, of which `State.Inv.slotWritten_writeSlot` says all. -/
theorem setWritesOnlyTheSlot : Obligations.SetWritesOnlyTheSlot := by
  intro s c i v hinv hacc
  exact ⟨_, exec_of_admits (i := .set c i v) hacc, hinv.slotWritten_writeSlot hacc v,
    endedOk_effectOf (.set c i v) s _, fun _ hd => State.ctx_writeSlot_of_ne s hd i v, fun _ => rfl, fun _ => rfl, rfl⟩

/-- Settles O28: the effect is that of SET, and the response is GET's, of the state before the write. -/
theorem getAndSetAnswersOldAndWrites : Obligations.GetAndSetAnswersOldAndWrites := by
  intro s c i v hinv hacc
  refine ⟨_, exec_of_admits (i := .getAndSet c i v) hacc, hinv.slotWritten_writeSlot hacc v, ?ended,
    fun _ hd => State.ctx_writeSlot_of_ne s hd i v, fun _ => rfl, fun _ => rfl, rfl⟩
  case ended =>
    rw [← hinv.slotValue_eq_slot hacc]
    exact endedOk_effectOf (.getAndSet c i v) s _

/-- Settles O35: the effect is one run of WBUF cells, from 0 up, that holds the context's words. -/
theorem rawWordsCopiesEveryWord : Obligations.RawWordsCopiesEveryWord := by
  intro s c huse hfit
  refine ⟨_, exec_of_admits (i := .rawWords c) ⟨huse, hfit⟩, fun w hw => ?copied, fun a ha => ?kept,
    endedOk_effectOf (.rawWords c) s _, fun _ => rfl, fun _ => rfl, rfl⟩
  case copied => simp [effectOf, State.readStaged_writeStaged, hw, State.getElem_readWords]
  case kept => simp [effectOf, State.readStaged_writeStaged, Nat.not_lt.2 ha]

/-- Settles O42: the unit waits, every command completes (`exec_next`), a word that is no operation faults, a host
write finds its cell or stops, and a reset completes. -/
theorem everyStepCompletes : Obligations.EveryStepCompletes := by
  intro s
  cases hin : s.inputs with
  | nil => exact .inl ⟨s, step_nil hin⟩
  | cons action rest =>
    cases action with
    | command cw =>
      cases hdecode : decode cw with
      | ok i =>
        obtain ⟨t, ht⟩ := exec_next i { s with inputs := rest }
        exact .inl ⟨t, (step_command hin hdecode).trans ht⟩
      | error e => exact .inl ⟨_, step_illegal hin hdecode⟩
    | writeValue a v =>
      rcases Nat.lt_or_ge a s.cfg.vbufLen with ha | ha
      · exact .inl ⟨_, step_writeValue hin ha⟩
      · exact .inr (.inl ⟨a, v, rest, rfl, ha, step_writeValue_of_noCell hin ha⟩)
    | writeWord a w =>
      rcases Nat.lt_or_ge a s.cfg.wbufLen with ha | ha
      · exact .inl ⟨_, step_writeWord hin ha⟩
      · exact .inr (.inr ⟨a, w, rest, rfl, ha, step_writeWord_of_noCell hin ha⟩)
    | reset => exact .inl ⟨_, step_reset hin⟩

end

section
/-! The encoding (spec/30_encoding.md): a command word and its operation give each other back (R81, R84), the decoder is
the table of R85, and a word is illegal in the three ways of R86. -/

namespace Sys2Proof

/-- The row of an operation in the table of R85, which stands in the order of the codes (R84). -/
def Op.row (o : Op) : OpRow := opTable[Op.all.idxOf o]'(by cases o <;> decide)

theorem Op.mem_all (o : Op) : o ∈ Op.all := by cases o <;> decide

/-- The table has one row an operation, and no other row. -/
theorem opTable_eq_map_row : opTable = Op.all.map Op.row := by decide

theorem mem_opTable {row : OpRow} : row ∈ opTable ↔ ∃ o : Op, o.row = row := by
  simp [opTable_eq_map_row, Op.mem_all]

/-- The codes of R84 differ. -/
theorem Op.code_inj {o p : Op} (h : o.code = p.code) : o = p := by
  simpa using (opOf_eq_some (o := p)).2 h

/-- The mnemonics of the rows differ. -/
theorem Op.row_mnemonic_inj {o p : Op} (h : o.row.mnemonic = p.row.mnemonic) : o = p :=
  have hnodup : (Op.all.map fun o => o.row.mnemonic).Nodup := by decide
  List.inj_on_of_nodup_map hnodup o.mem_all p.mem_all h

theorem mnemonic_assemble (o : Op) (cw : CommandWord) : (assemble o cw).mnemonic = o.row.mnemonic := by
  cases o <;> rfl

/-- Mask and match of a row, field by field: the mask is all ones or all zeros on each field, `op` matches the
code, and the masked other fields match 0 (R85). -/
theorem masked_row_iff (o : Op) (cw : CommandWord) :
    cw &&& o.row.mask = o.row.pattern ↔ opField cw = o.code ∧ mustBeZero o cw = true := by
  have full4 (x : BitVec 4) : x &&& 15#4 = x := BitVec.and_allOnes
  have full8 (x : BitVec 8) : x &&& 255#8 = x := BitVec.and_allOnes
  have full32 (x : BitVec 32) : x &&& 4294967295#32 = x := BitVec.and_allOnes
  rw [masked_eq_iff]
  cases o <;>
    simp [Op.row, opTable, Op.all, Op.code, mustBeZero, opField, ctxField, ctx2Field, bitsargField, rsvField, aField,
      bField, full4, full8, full32, and_assoc]

/-- What decodes, in the terms of the table. -/
theorem decode_eq_ok_iff_masked {cw : CommandWord} {i : Instr} :
    decode cw = .ok i ↔ ∃ o : Op, cw &&& o.row.mask = o.row.pattern ∧ i = assemble o cw := by
  simp only [decode_eq_ok, masked_row_iff, and_assoc]

/-- The encoding of the used fields is the word, when the unused ones are zero (R81, R85). -/
theorem encode_assemble {o : Op} {cw : CommandWord} (hop : opField cw = o.code) (hzero : mustBeZero o cw = true) :
    encode (assemble o cw) = cw := by
  cases o <;>
    · simp only [mustBeZero, Bool.and_eq_true, beq_iff_eq] at hzero
      apply command_ext <;> simp [assemble, encode, hop, hzero]

theorem encode_of_decode {cw : CommandWord} {i : Instr} (h : decode cw = .ok i) : encode i = cw := by
  obtain ⟨o, hop, hzero, rfl⟩ := decode_eq_ok.1 h
  exact encode_assemble hop hzero

theorem decode_encode (i : Instr) : decode (encode i) = .ok i := by
  cases i with
  | new c bits size => exact Laws.RoundTrip.new c bits size
  | fromValues c bits size => exact Laws.RoundTrip.fromValues c bits size
  | fromWords c bits size wlen => exact Laws.RoundTrip.fromWords c bits size wlen
  | widx c index => exact Laws.RoundTrip.widx c index
  | get c index => exact Laws.RoundTrip.get c index
  | set c index value => exact Laws.RoundTrip.set c index value
  | getAndSet c index value => exact Laws.RoundTrip.getAndSet c index value
  | getAll c => exact Laws.RoundTrip.getAll c
  | unpack c => exact Laws.RoundTrip.unpack c
  | rawWords c => exact Laws.RoundTrip.rawWords c
  | clone d c => exact Laws.RoundTrip.clone d c

/-- A row matches a word exactly when the word decodes to the row's operation (R85). -/
theorem masked_row_iff_decode (o : Op) (cw : CommandWord) :
    cw &&& o.row.mask = o.row.pattern ↔ decode cw = .ok (assemble o cw) := by
  rw [decode_eq_ok_iff_masked]
  constructor
  · exact fun h => ⟨o, h, rfl⟩
  · rintro ⟨p, hp, heq⟩
    have hmnemonic := congrArg Instr.mnemonic heq
    rw [mnemonic_assemble, mnemonic_assemble] at hmnemonic
    exact Op.row_mnemonic_inj hmnemonic ▸ hp

/-- A word that matches no row is a word that decodes to nothing (R85, R86 (a)). -/
theorem no_row_iff_decode_error {cw : CommandWord} :
    (∀ row ∈ opTable, cw &&& row.mask ≠ row.pattern) ↔ ∃ e, decode cw = .error e := by
  simp only [decode_error_iff, mem_opTable, ne_eq, decode_eq_ok_iff_masked]
  constructor
  · rintro hnone i ⟨o, hmask, -⟩
    exact hnone _ ⟨o, rfl⟩ hmask
  · rintro hnone _ ⟨o, rfl⟩ hmask
    exact hnone _ ⟨o, hmask, rfl⟩

/-- The context numbers a command word names: `ctx`, and `ctx2` when it is CLONE (R82, R86). -/
theorem wf_assemble_iff {cfg : Config} {o : Op} {cw : CommandWord} :
    (assemble o cw).wf cfg = true ↔
      (ctxField cw).toNat < cfg.nctx ∧ (o = .clone → (ctx2Field cw).toNat < cfg.nctx) := by
  cases o <;> simp [assemble, Instr.wf, legalCtx]

/-- The same of a word that decodes, in terms of its fields alone. -/
theorem wf_iff_of_decode {cfg : Config} {cw : CommandWord} {i : Instr} (h : decode cw = .ok i) :
    i.wf cfg = true ↔
      (ctxField cw).toNat < cfg.nctx ∧ (opField cw = 0x33#8 → (ctx2Field cw).toNat < cfg.nctx) := by
  obtain ⟨o, hop, -, rfl⟩ := decode_eq_ok.1 h
  have hclone : opField cw = 0x33#8 ↔ o = .clone := hop ▸ ⟨Op.code_inj (p := .clone), fun h => h ▸ rfl⟩
  rw [wf_assemble_iff, hclone]

namespace Machine

theorem State.raise_illegalRaise (s : State) (cw : CommandWord) :
    s.raise (illegalRaise cw) = faulted s .illegalCommand (cw.extractLsb' 0 32) (cw.extractLsb' 32 32) := by
  simp only [State.raise_eq, illegalRaise, faulted, BitVec.ofNat_toNat, BitVec.setWidth_eq]

/-- A command whose context numbers are not legal raises IllegalCommand, before any other check (R86, R202). -/
theorem exec_of_not_wf {i : Instr} {s : State} (h : i.wf s.cfg ≠ true) :
    exec i s = .next (s.raise (illegalRaise (encode i))) := by
  obtain ⟨rest, hchecks⟩ := checksOf_head i s
  apply exec_of_some
  simp [hchecks, illegalCheck, firstRaise_cons, h]

/-- A word that is no operation with legal context numbers ends as an illegal command, once taken from the inputs. -/
theorem step_of_illegal {s : State} {cw : CommandWord} {rest : List HostAction} (hin : s.inputs = .command cw :: rest)
    (hillegal : ∀ i, decode cw = .ok i → i.wf s.cfg ≠ true) :
    step s = .next (State.raise { s with inputs := rest } (illegalRaise cw)) := by
  cases hdecode : decode cw with
  | error e => exact step_illegal hin hdecode
  | ok i =>
    have hexec := exec_of_not_wf (s := { s with inputs := rest }) (hillegal i hdecode)
    rw [step_command hin hdecode, hexec, encode_of_decode hdecode]

end Machine

end Sys2Proof

open Sys2Proof Sys2Proof.Machine

/-- Settles O1, one operation at a time: the fields of a packed word are the ones it was packed from. -/
theorem decodeEncodeRoundTrip : Obligations.DecodeEncodeRoundTrip := decode_encode

/-- Settles O2: the used fields of the word are the operands, the others are zero, and a word is its fields. -/
theorem decodedWordIsItsEncoding : Obligations.DecodedWordIsItsEncoding := fun _ _ => encode_of_decode

/-- Settles O3: a row is the row of an operation, and mask and match say of a word that it has the operation's code and
zero where the operation uses no field (`masked_row_iff`), which is when it decodes to the operation. -/
theorem decoderIsTheOperationTable : Obligations.DecoderIsTheOperationTable := by
  refine ⟨fun row hrow cw => ?row, ?disjoint, fun cw => no_row_iff_decode_error⟩
  case row =>
    obtain ⟨o, rfl⟩ := mem_opTable.1 hrow
    rw [masked_row_iff_decode]
    constructor
    · exact fun h => ⟨_, h, mnemonic_assemble o cw, encode_of_decode h⟩
    · rintro ⟨i, hi, hmnemonic, -⟩
      obtain ⟨p, -, rfl⟩ := decode_eq_ok_iff_masked.1 hi
      rw [mnemonic_assemble] at hmnemonic
      exact Op.row_mnemonic_inj hmnemonic ▸ hi
  case disjoint =>
    have hnodup : Op.all.Nodup := by decide
    rw [opTable_eq_map_row, List.pairwise_map]
    refine hnodup.imp fun hne cw => ?_
    rintro ⟨ho, hp⟩
    exact hne (Op.code_inj (((masked_row_iff _ cw).1 ho).1.symm.trans ((masked_row_iff _ cw).1 hp).1))

/-- Settles O6: the three ways to be illegal are those in which no operation with legal context numbers decodes, and
then the step is fault entry, on a word that is the encoding of what it decodes to. -/
theorem illegalWordsFault : Obligations.IllegalWordsFault := by
  intro s cw rest hin illegal
  constructor
  · intro hillegal
    refine (step_of_illegal hin fun i hi hwf => ?_).trans (by rw [State.raise_illegalRaise])
    obtain ⟨hctx, hctx2⟩ := (wf_iff_of_decode hi).1 hwf
    rcases hillegal with hnone | hbad | ⟨hop, hbad⟩
    · exact decode_error_iff.1 (no_row_iff_decode_error.1 hnone) i hi
    · exact Nat.not_lt.2 hbad hctx
    · exact Nat.not_lt.2 hbad (hctx2 hop)
  · intro hlegal
    obtain ⟨hrow, hctx, hctx2⟩ : _ ∧ _ ∧ _ := by simpa only [illegal, not_or, not_and, Nat.not_le] using hlegal
    cases hdecode : decode cw with
    | error e => exact absurd (no_row_iff_decode_error.2 ⟨e, hdecode⟩) hrow
    | ok i => exact ⟨i, rfl, (wf_iff_of_decode hdecode).2 ⟨hctx, hctx2⟩, step_command hin hdecode⟩

/-- Settles O4, by evaluating the decoder on each word. -/
theorem printedWordsDecode : Obligations.PrintedWordsDecode :=
  ⟨by decide, by decide, by decide, by decide, by decide, by decide, by decide⟩

end

section
/-! Construction: the capacity checks, what NEW builds, and a context rebuilt from its own words (spec/40_construct.md
R110 to R116; spec/43_bulk.md R173; spec/60_exceptions.md R196, R202). -/

namespace Sys2Proof.Machine

/-! ## The first check that applies -/

theorem widthCheck_passes {bits : BitVec 8} (h1 : 1 ≤ bits.toNat) (h32 : bits.toNat ≤ 32) :
    (widthCheck bits).1 = false := decide_eq_false (by omega)

theorem lengthCheck_passes (expected : Nat) : (lengthCheck expected expected).1 = false :=
  decide_eq_false (not_not_intro rfl)

/-- A check that applies raises its fault when none before it applies (R202): the converse of `firstRaise_eq_some`. -/
theorem firstRaise_append_cons {before : List (Bool × Raise)} (hpass : ∀ check ∈ before, check.1 = false) (r : Raise)
    (after : List (Bool × Raise)) : firstRaise (before ++ (true, r) :: after) = some r := by
  induction before with
  | nil => rfl
  | cons check rest ih =>
    obtain ⟨hcheck, hrest⟩ := List.forall_mem_cons.1 hpass
    rw [List.cons_append, firstRaise_cons, hcheck]
    exact ih hrest

/-- A command whose first check to apply is a capacity check records the amount and the capacity (R111, R196). -/
theorem exec_of_over_capacity {i : Instr} {s : State} {amount : Value} {capacity : Nat}
    (before : List (Bool × Raise)) {after : List (Bool × Raise)}
    (hchecks : checksOf i s = before ++ capacityCheck amount.toNat capacity :: after)
    (hpass : ∀ check ∈ before, check.1 = false) (hover : capacity < amount.toNat) :
    exec i s = .next (faulted s .capacityExceeded amount (BitVec.ofNat 32 capacity)) := by
  rw [capacityCheck, decide_eq_true hover] at hchecks
  rw [exec_of_some (hchecks ▸ firstRaise_append_cons hpass _ after), State.raise_eq, faulted, BitVec.ofNat_toNat,
    BitVec.setWidth_eq]

/-! ## The registers of a sound context -/

namespace Shape.sound

variable {cfg : Config} {sh : Shape} (h : sh.sound cfg)
include h

theorem nwords_eq_ceilWords : sh.nwords.toNat = ceilWords sh.bits.toNat sh.size.toNat := by
  obtain ⟨-, -, hvpw, hnwords, -⟩ := h
  rw [hnwords, hvpw, ceilWords]

/-- The registers are functions of BITS and SIZE (R27). -/
theorem eq_of_bits_size {cfg' : Config} {sh' : Shape} (h' : sh'.sound cfg') (hbits : sh'.bits.toNat = sh.bits.toNat)
    (hsize : sh'.size = sh.size) : sh' = sh := by
  have hnwords : sh'.nwords.toNat = sh.nwords.toNat := by
    rw [h.nwords_eq_ceilWords, nwords_eq_ceilWords h', hbits, hsize]
  obtain ⟨-, hmask, hvpw, -, hmagic, -⟩ := h
  obtain ⟨-, hmask', hvpw', -, hmagic', -⟩ := h'
  have hmask_eq : sh'.mask = sh.mask := BitVec.eq_of_toNat_eq (by rw [hmask', hbits, hmask])
  have hvpw_eq : sh'.vpw = sh.vpw := BitVec.eq_of_toNat_eq (by rw [hvpw', hbits, hvpw])
  obtain ⟨hmul, hadd, hshift⟩ := Magic.mk.inj (hmagic'.symm.trans (hvpw_eq ▸ hmagic))
  cases sh'
  cases sh
  simp_all only [BitVec.toNat_inj]

end Shape.sound

end Sys2Proof.Machine

open Sys2Proof Sys2Proof.Machine

/-- Settles O14: in each case the checks before the capacity check, which the case lists, find nothing. -/
theorem tooLargeIsCapacityExceeded : Obligations.TooLargeIsCapacityExceeded := by
  intro s c bits size hc h1 h32
  have hlegal : legalCtx s.cfg c = true := decide_eq_true hc
  have hwidth := widthCheck_passes h1 h32
  simp only [← nwords_shapeOf h1 h32 size, BitVec.ofNat_toNat, BitVec.setWidth_eq, List.forall_mem_cons]
  refine ⟨fun hover => ⟨?new, ?fromValues, ?fromWords, List.forall_mem_nil _⟩, fun hwords hover => ?values,
    fun hwords hover => ?staged, fun hvalid hover => ?unpack, fun hvalid hover => ?rawWords⟩
  case new | fromValues =>
    exact exec_of_over_capacity [illegalCheck _ s, widthCheck bits] rfl (by simp [Instr.wf, hlegal, hwidth]) hover
  case fromWords =>
    exact exec_of_over_capacity [illegalCheck _ s, widthCheck bits, lengthCheck _ _] rfl
      (by simp [Instr.wf, hlegal, hwidth, lengthCheck_passes]) hover
  case values =>
    exact exec_of_over_capacity [illegalCheck _ s, widthCheck bits, capacityCheck _ _] rfl
      (by simp [Instr.wf, hlegal, hwidth, hwords]) hover
  case staged =>
    exact exec_of_over_capacity [illegalCheck _ s, widthCheck bits, lengthCheck _ _, capacityCheck _ _] rfl
      (by simp [Instr.wf, hlegal, hwidth, lengthCheck_passes, hwords]) hover
  case unpack | rawWords =>
    exact exec_of_over_capacity [illegalCheck _ s, instanceCheck c s] rfl (by simp [Instr.wf, hlegal, hvalid]) hover

/-- Settles O17: NEW builds its context from a list of zeros, as many as it has words. -/
theorem newBuildsZeroedWords : Obligations.NewBuildsZeroedWords := by
  intro s c bits size hc h1 h32 hcap
  have hnwords := nwords_shapeOf h1 h32 size
  have hcap' := hnwords.trans_le hcap
  refine ⟨_, exec_of_admits (i := .new c bits size) ⟨hc, ⟨h1, h32⟩, hcap'⟩, builtAs_build h1 h32 hcap' s c _,
    fun w hw => ?zeroed, ?ended, ⟨fun _ => rfl, fun _ => rfl, rfl⟩, fun d hd => State.ctx_build_of_ne s hd _ _⟩
  case zeroed => simp [effectOf, State.readWord_build_self, hnwords, hw]
  case ended =>
    rw [← hnwords, BitVec.ofNat_toNat]
    exact endedOk_effectOf (.new c bits size) s _

/-- Settles O37, from what RAWWORDS and FROMWORDS do (O35, O19): the new context has the words, and the registers too,
since they are functions of its width and size. -/
theorem rawWordsThenFromWordsRebuilds : Obligations.RawWordsThenFromWordsRebuilds := by
  intro s c d hinv huse hd hfit sh
  have hsh : sh.sound s.cfg := hinv.shape_sound huse.2
  have ⟨⟨h1, h32⟩, _, _, _, _, hcap⟩ := hsh
  have hbits : (sh.bits.setWidth 8).toNat = sh.bits.toNat := BitVec.toNat_setWidth_of_le (by norm_num)
  have hlen := hsh.nwords_eq_ceilWords
  obtain ⟨t, ht, hcopied, -, ⟨htresponses, -, htcfg, -⟩, -⟩ := rawWordsCopiesEveryWord s c huse hfit
  rw [← hbits] at h1 h32 hlen
  obtain ⟨u, hu, ⟨hvalid, husound, hubits, husize⟩, hwords, ⟨huresponses, -⟩, -⟩ :=
    fromWordsTakesWordsVerbatim t d (sh.bits.setWidth 8) sh.size sh.nwords (htcfg ▸ hd) h1 h32 hlen
      (hlen ▸ htcfg ▸ hcap) (htcfg ▸ hfit)
  have hshape : (u.ctx d).shape = sh := hsh.eq_of_bits_size husound (hubits.trans hbits) husize
  refine ⟨t, u, ht, hu, ?responses, hvalid, hshape, fun i hi => ?slots⟩
  case responses =>
    rw [huresponses, htresponses, List.append_assoc]
    rfl
  case slots =>
    have hword := hsh.div_vpw_lt_nwords hi
    exact State.slot_congr hshape ((hwords _ hword).trans (hcopied _ hword))

end

section
/-! The word-indexer: its exact datapath, where it is the quotient and where it is one less, and WIDX
(spec/41_indexer.md R131 to R140). -/

namespace Sys2Proof.Machine

/-- The bound of R132 on the product. -/
theorem mul_toNat_le (i mul : BitVec 32) : i.toNat * mul.toNat ≤ (2 ^ 32 - 1) ^ 2 := by
  rw [sq]
  exact Nat.mul_le_mul (Nat.le_sub_one_of_lt i.isLt) (Nat.le_sub_one_of_lt mul.isLt)

/-- The row for the divisor 1 gives every index back (R135 (a), R136). -/
theorem mulShift_magic_one (i : BitVec 32) :
    (mulShift i (magic 0).mul (magic 0).add (magic 0).shift).toNat = i.toNat := by
  have hi := i.isLt
  rw [mulShift_toNat]
  change (i.toNat * (2 ^ 32 - 1) + (2 ^ 32 - 1)) / 2 ^ 32 / 2 ^ 0 = i.toNat
  omega

/-- The row for a power of two gives the quotient at every index: its error term is 0 (R136). -/
theorem mulShift_magic_two_pow (i : BitVec 32) {k : Nat} (h64 : 2 ^ k ≤ 64) :
    (mulShift i (magic (2 ^ k - 1)).mul (magic (2 ^ k - 1)).add (magic (2 ^ k - 1)).shift).toNat =
      i.toNat / 2 ^ k := by
  cases k with
  | zero => exact (mulShift_magic_one i).trans (Nat.div_one _).symm
  | succ k =>
    have hk : k + 1 ≤ 6 := (Nat.pow_le_pow_iff_right (by norm_num : 1 < 2)).1 h64
    have hrem : 2 ^ 32 % 2 ^ (k + 1) = 0 := Nat.mod_eq_zero_of_dvd (Nat.pow_dvd_pow 2 (by omega))
    exact mulShift_magic_eq_div i (Nat.le_self_pow k.succ_ne_zero 2) h64 (by rw [hrem]; exact Nat.zero_le _)

theorem two_le_of_not_two_pow {d : Nat} (h1 : 1 ≤ d) (hpow : ¬ ∃ k, d = 2 ^ k) : 2 ≤ d :=
  Nat.lt_of_le_of_ne h1 fun hone => hpow ⟨0, hone.symm⟩

/-- What a divisor that is no power of two makes of the datapath: one rounded-down reciprocal, `i + 1` times
(R135 (c)). -/
theorem mulShift_magic_not_two_pow (i : BitVec 32) {d : Nat} (h1 : 1 ≤ d) (hpow : ¬ ∃ k, d = 2 ^ k) :
    (mulShift i (magic (d - 1)).mul (magic (d - 1)).add (magic (d - 1)).shift).toNat =
      (i.toNat * (2 ^ 32 / d) + 2 ^ 32 / d) / 2 ^ 32 := by
  have hmul : (BitVec.ofNat 32 (2 ^ 32 / d)).toNat = 2 ^ 32 / d :=
    Nat.mod_eq_of_lt (Nat.div_lt_self (by norm_num) (two_le_of_not_two_pow h1 hpow))
  rw [magic, Nat.sub_add_cancel h1, mulShift_toNat, magicFor_not_two_pow hpow, hmul]
  exact Nat.div_one _

/-- The identity R136 turns on, multiplied out: the datapath's sum and the loss make the quotient and the remainder. -/
theorem reciprocal_sum_add_loss (P d i : Nat) :
    (i * (P / d) + P / d) * d + (i + 1) * (P % d) = i / d * P * d + (i % d + 1) * P := by
  calc (i * (P / d) + P / d) * d + (i + 1) * (P % d) = (i + 1) * (d * (P / d) + P % d) := by ring
    _ = (d * (i / d) + i % d + 1) * P := by rw [Nat.div_add_mod, Nat.div_add_mod]
    _ = i / d * P * d + (i % d + 1) * P := by ring

/-- R136, where the condition fails: the loss exceeds the remainder's share, but for `i` below `P` it never reaches a
second quotient, so that the result is one less. -/
theorem mul_reciprocal_div_add_one {P d i : Nat} (hd : 0 < d) (hi : i < P)
    (hfail : (i % d + 1) * P < (i + 1) * (P % d)) :
    (i * (P / d) + P / d) / P + 1 = i / d := by
  have hP : 0 < P := Nat.zero_lt_of_lt hi
  have hsum := reciprocal_sum_add_loss P d i
  have hloss : (i + 1) * (P % d) ≤ P * d := Nat.mul_le_mul hi (Nat.mod_lt P hd).le
  have hupper : i * (P / d) + P / d < i / d * P := Nat.lt_of_mul_lt_mul_right (a := d) (by omega)
  have hlower : i / d * P ≤ (i * (P / d) + P / d) + P := by
    refine Nat.le_of_mul_le_mul_right (c := d) ?_ hd
    rw [Nat.add_mul]
    omega
  apply Nat.le_antisymm
  · exact (Nat.div_lt_iff_lt_mul hP).2 hupper
  · rw [← Nat.add_div_right _ hP]
    exact (Nat.le_div_iff_mul_le hP).2 hlower

end Sys2Proof.Machine

open Sys2Proof Sys2Proof.Machine

/-- Settles O20: each 64-bit result is the exact one modulo 2^64, and the bounds of R132 keep it below. -/
theorem indexerNeverOverflows : Obligations.IndexerNeverOverflows := by
  intro i mul add shift
  have hproduct := mul_toNat_le i mul
  have hadd := add.isLt
  have hmul64 : (i.setWidth 64 * mul.setWidth 64).toNat = i.toNat * mul.toNat := by
    rw [BitVec.toNat_mul, BitVec.toNat_setWidth_of_le (by norm_num), BitVec.toNat_setWidth_of_le (by norm_num)]
    exact Nat.mod_eq_of_lt (by omega)
  refine ⟨mulShift_toNat i mul add shift, hproduct, by omega, hmul64, ?sum⟩
  case sum =>
    rw [BitVec.toNat_add, hmul64, BitVec.toNat_setWidth_of_le (by norm_num)]
    exact Nat.mod_eq_of_lt (by omega)

/-- Settles O21: a power of two has no error term; for every other divisor the error term decides between the quotient
and one less. -/
theorem multiplyShiftExactness : Obligations.MultiplyShiftExactness := by
  intro d i h1 h64
  refine ⟨?power, fun hpow => ⟨fun hexact => ?exact, fun hfail => ?inexact⟩⟩
  case power =>
    rintro ⟨k, rfl⟩
    exact mulShift_magic_two_pow i h64
  case exact => exact mulShift_magic_eq_div i (two_le_of_not_two_pow h1 hpow) h64 hexact
  case inexact =>
    rw [mulShift_magic_not_two_pow i h1 hpow]
    exact mul_reciprocal_div_add_one h1 i.isLt hfail

/-- Settles O22, from `Shape.sound.wordIndex_eq_div`: the bound on WORDS_CAP keeps every index below SIZE exact. -/
theorem wordIndexIsTheQuotient : Obligations.WordIndexIsTheQuotient := by
  intro s c i hinv hvalid hi sh
  have hsh : sh.sound s.cfg := hinv.shape_sound hvalid
  have ⟨hcfg, _⟩ := hinv
  have hquot := hsh.wordIndex_eq_div hcfg hi
  exact ⟨hquot, hquot, hquot ▸ hsh.div_vpw_lt_nwords hi⟩

/-- Settles O23: with the word index the quotient, the difference is the remainder, and a slot ends inside its word. -/
theorem bitOffsetStaysInTheWord : Obligations.BitOffsetStaysInTheWord := by
  intro s c i hinv hvalid hi sh
  have hsh : sh.sound s.cfg := hinv.shape_sound hvalid
  have ⟨hcfg, _⟩ := hinv
  have hquot := hsh.wordIndex_eq_div hcfg hi
  have hoff := hsh.bitOffset_eq hcfg hi
  have hend : sh.bitOffset i + sh.bits.toNat ≤ 64 := hoff ▸ hsh.slot_ends_in_word i.toNat
  have ⟨⟨hbits, _⟩, _⟩ := hsh
  exact ⟨hquot ▸ Nat.div_mul_le_self _ _, rfl, hoff, by omega, hend⟩

/-- Settles O24: WIDX has no effect, and its data is the quotient and the layout's offset, each of which fits its
field. -/
theorem widxAnswersWordAndOffset : Obligations.WidxAnswersWordAndOffset := by
  intro s c i hinv hacc sh
  have ⟨⟨_, hvalid⟩, hi⟩ := hacc
  obtain ⟨-, hquot, hword⟩ := wordIndexIsTheQuotient s c i hinv hvalid hi
  obtain ⟨-, -, hoff, hmax, -⟩ := bitOffsetStaysInTheWord s c i hinv hvalid hi
  refine ⟨_, _, exec_of_admits (i := .widx c i) hacc, ?data, endedOk_effectOf (.widx c i) s _, fun _ => rfl,
    fun _ => rfl, fun _ => rfl, rfl⟩
  case data =>
    rw [← hquot, ← hoff]
    exact widxData_toNat (hword.trans (BitVec.isLt _)) (by omega)

end

section
/-! The slot accessors: their two checks, the laws of the extractor and the depositor, and what a write of one slot does
to a read of the same and of another (spec/42_access.md R152, R155, R157 to R159). -/

namespace Sys2Proof.Machine

/-! ## The checks of the operations that take an index (R157) -/

/-- A legal command that reads an invalid context faults with that context's number (R157, R170, R195). -/
theorem exec_of_source_invalid {i : Instr} {s : State} {d : CtxNum} (hwf : i.wf s.cfg = true)
    (hsource : i.source = some d) (hinvalid : (s.ctx d).valid = false) :
    exec i s = .next (faulted s .noInstance (d.setWidth 32) 0) := by
  rw [exec_of_some (firstRaise_of_source_invalid hsource hinvalid), if_pos hwf, State.raise_eq, BitVec.ofNat_toNat]
  rfl

/-- The four operations that take an index name one context, which they read, and make the same checks of it. -/
theorem checksOf_indexTaker {i : Instr} {c : CtxNum} {a v : Value}
    (h : i ∈ [Instr.widx c a, .get c a, .set c a v, .getAndSet c a v]) (s : State) :
    i.source = some c ∧ i.wf s.cfg = legalCtx s.cfg c ∧
    checksOf i s = [illegalCheck i s, instanceCheck c s, indexCheck c a s] := by
  simp only [List.mem_cons, List.not_mem_nil, or_false] at h
  obtain rfl | rfl | rfl | rfl := h <;> exact ⟨rfl, rfl, rfl⟩

/-- The index check applies after that of the context, and records the index and SIZE (R157, R193). -/
theorem exec_of_index_ge_size {i : Instr} {s : State} {c : CtxNum} {a : Value}
    (hchecks : checksOf i s = [illegalCheck i s, instanceCheck c s, indexCheck c a s]) (hwf : i.wf s.cfg = true)
    (hvalid : (s.ctx c).valid = true) (hsize : (s.ctx c).shape.size.toNat ≤ a.toNat) :
    exec i s = .next (faulted s .indexOutOfBounds a (s.ctx c).shape.size) := by
  have hpass : ∀ check ∈ [illegalCheck i s, instanceCheck c s], check.1 = false := by simp [hwf, hvalid]
  have hraise : firstRaise (checksOf i s) = some (indexCheck c a s).2 := by
    rw [hchecks, indexCheck, decide_eq_true hsize]
    exact firstRaise_append_cons hpass _ []
  rw [exec_of_some hraise, State.raise_eq, indexCheck, faulted, BitVec.ofNat_toNat, BitVec.setWidth_eq,
    BitVec.ofNat_toNat, BitVec.setWidth_eq]

/-! ## The extractor and the depositor (R152) -/

/-- Slots at different offsets of one word are disjoint. -/
theorem slots_disjoint_of_ne {bits off off' : Nat} (hoff : bits ∣ off) (hoff' : bits ∣ off') (hne : off' ≠ off) :
    off + bits ≤ off' ∨ off' + bits ≤ off := by
  by_contra hoverlap
  have hle : off ≤ off' := Nat.le_of_lt_add_of_dvd (by omega) hoff hoff'
  have hge : off' ≤ off := Nat.le_of_lt_add_of_dvd (by omega) hoff' hoff
  omega

/-- A slot that ends inside the word ends below the padding bits (R51, R55). -/
theorem slot_ends_below_padding {bits off : Nat} (hoff : bits ∣ off) (hend : off + bits ≤ 64) :
    off + bits ≤ 64 / bits * bits :=
  calc off + bits = (off + bits) / bits * bits := (Nat.div_mul_cancel (Nat.dvd_add_self_right.2 hoff)).symm
    _ ≤ 64 / bits * bits := Nat.mul_le_mul_right _ (Nat.div_le_div_right hend)

/-- Independence: a slot disjoint from the one deposited reads as before (R152 (b)). -/
theorem extract_deposit_of_disjoint {mask : Word} {bits off off' : Nat} (hmask : mask.toNat = 2 ^ bits - 1)
    (hdisjoint : off + bits ≤ off' ∨ off' + bits ≤ off) (word value : Word) :
    extract (deposit word off mask value) off' mask = extract word off' mask := by
  apply BitVec.eq_of_getLsbD_eq
  intro j _
  rw [getLsbD_extract, getLsbD_extract, getLsbD_of_mask hmask]
  by_cases hj : j < bits
  · rw [getLsbD_deposit_of_outside hmask (by omega)]
  · rw [decide_eq_false hj, Bool.and_false, Bool.and_false]

/-- Idempotence, for every mask and offset: both deposits give a bit of the slot the same value and leave any other
(R152 (d)). -/
theorem deposit_deposit_self (word : Word) (off : Nat) (mask value : Word) :
    deposit (deposit word off mask value) off mask value = deposit word off mask value := by
  apply BitVec.eq_of_getLsbD_eq
  intro j _
  rw [getLsbD_deposit]
  split
  case isTrue hslot => rw [getLsbD_deposit, if_pos hslot]
  case isFalse => rfl

/-! ## A read of a slot after a write (R158, R159) -/

/-- Responding and writing a slot do not meet. -/
theorem State.writeSlot_respond (s : State) (c : CtxNum) (i v : Value) (d : BitVec 64) :
    (s.respond d).writeSlot c i v = (s.writeSlot c i v).respond d := rfl

/-- A write of one slot leaves which slots there are. -/
theorem State.accessible_writeSlot {s : State} {d : CtxNum} {j : Value} (h : s.accessible d j) (c : CtxNum)
    (i v : Value) : (s.writeSlot c i v).accessible d j := by
  simpa only [State.accessible, State.usable, writeSlot_cfg, valid_writeSlot, shape_writeSlot] using h

/-- Different slots in one word of a context do not overlap (R51). -/
theorem Shape.sound.slots_disjoint {cfg : Config} {sh : Shape} (h : sh.sound cfg) (hcfg : cfg.wf) {i j : Value}
    (hi : i.toNat < sh.size.toNat) (hj : j.toNat < sh.size.toNat) (hne : i ≠ j)
    (hword : sh.wordIndex j = sh.wordIndex i) :
    sh.bitOffset i + sh.bits.toNat ≤ sh.bitOffset j ∨ sh.bitOffset j + sh.bits.toNat ≤ sh.bitOffset i := by
  have ⟨⟨hbits, _⟩, _⟩ := h
  rw [h.wordIndex_eq_div hcfg hi, h.wordIndex_eq_div hcfg hj] at hword
  rw [h.bitOffset_eq hcfg hi, h.bitOffset_eq hcfg hj]
  refine slots_disjoint_of_ne (Nat.dvd_mul_left ..) (Nat.dvd_mul_left ..) fun hoff => hne ?_
  have hplace := Nat.eq_of_mul_eq_mul_right hbits hoff
  apply BitVec.eq_of_toNat_eq
  rw [← Nat.div_add_mod i.toNat sh.vpw.toNat, ← Nat.div_add_mod j.toNat sh.vpw.toNat, hword, hplace]

namespace State.Inv

variable {s : State} (h : s.Inv) {c : CtxNum} {i : Value} (hacc : s.accessible c i)
include h hacc

/-- The accessors' datapath reads back the masked value it wrote (R159). -/
theorem slotValue_writeSlot_self (v : Value) :
    (s.writeSlot c i v).slotValue c i = v.setWidth 64 &&& (s.ctx c).shape.mask := by
  have ⟨⟨_, hvalid⟩, hi⟩ := hacc
  have ⟨hcfg, _⟩ := h
  have hsh := h.shape_sound hvalid
  have ⟨_, hmask, _⟩ := hsh
  have hend := hsh.bitOffset_eq hcfg hi ▸ hsh.slot_ends_in_word i.toNat
  rw [slotValue, slotWord, shape_writeSlot, State.writeSlot, readWord_writeWord, if_pos ⟨rfl, rfl⟩,
    extract_deposit hmask hend]

/-- A write of one slot leaves what the datapath reads of another: it is in another word, or disjoint from the slot
written (R158). -/
theorem slotValue_writeSlot_of_ne {j : Value} (haccj : s.accessible c j) (hne : i ≠ j) (v : Value) :
    (s.writeSlot c i v).slotValue c j = s.slotValue c j := by
  have ⟨⟨_, hvalid⟩, hi⟩ := hacc
  have ⟨_, hj⟩ := haccj
  have ⟨hcfg, _⟩ := h
  have hsh := h.shape_sound hvalid
  have ⟨_, hmask, _⟩ := hsh
  rw [slotValue, slotWord, shape_writeSlot, State.writeSlot, readWord_writeWord]
  by_cases hword : (s.ctx c).shape.wordIndex j = (s.ctx c).shape.wordIndex i
  · have hdisjoint := hsh.slots_disjoint hcfg hi hj hne hword
    rw [if_pos ⟨rfl, hword⟩, extract_deposit_of_disjoint hmask hdisjoint, slotValue, slotWord, slotWord, hword]
  · rw [if_neg fun hboth => hword hboth.2]
    rfl

end State.Inv

end Sys2Proof.Machine

open Sys2Proof Sys2Proof.Machine

/-- Settles O15: the four make the checks of R157 in its order, so that the first to apply decides. -/
theorem indexTakersCheckContextThenIndex : Obligations.IndexTakersCheckContextThenIndex := by
  intro s c a v hc i hi
  obtain ⟨hsource, hlegal, hchecks⟩ := checksOf_indexTaker hi s
  have hwf : i.wf s.cfg = true := hlegal.trans (decide_eq_true hc)
  exact ⟨exec_of_source_invalid hwf hsource, exec_of_index_ge_size hchecks hwf⟩

/-- Settles O25: a multiple of BITS at most 64 - BITS is the offset of a slot, which is disjoint from every other and
from the padding bits. -/
theorem extractorAndDepositorLaws : Obligations.ExtractorAndDepositorLaws := by
  intro bits off off' word v _ h32 hdvd hoff hdvd' _ mask value
  have hend : off + bits ≤ 64 := by omega
  have hmask : mask.toNat = 2 ^ bits - 1 := by
    have hpow : 2 ^ bits ≤ 2 ^ 32 := Nat.pow_le_pow_right (by norm_num) h32
    exact Nat.mod_eq_of_lt (by omega)
  refine ⟨extract_deposit hmask hend word value, fun hne => ?independence, fun j hj => ?padding,
    deposit_deposit_self word off mask value, deposit_eq_of_masked_eq ?masked word off⟩
  case independence => exact extract_deposit_of_disjoint hmask (slots_disjoint_of_ne hdvd hdvd' hne) word value
  case padding =>
    exact getLsbD_deposit_of_outside hmask (.inr ((slot_ends_below_padding hdvd hend).trans hj)) word value
  case masked => rw [BitVec.and_assoc, BitVec.and_self]

/-- Settles O29: GET only responds, and the slot written afterwards is the one GETANDSET writes
(`State.writeSlot_respond`). -/
theorem getAndSetIsGetThenSet : Obligations.GetAndSetIsGetThenSet := by
  intro s c i v hacc
  have hset := exec_of_admits (i := .set c i v) (s := s.respond (s.slotValue c i)) hacc
  rw [effectOf, State.writeSlot_respond] at hset
  exact ⟨_, _, _, _, exec_of_admits (i := .get c i) hacc, rfl, hset, rfl, exec_of_admits (i := .getAndSet c i v) hacc,
    rfl⟩

/-- Settles O30: the slot GET reads after the write is the one written (`State.Inv.slotValue_writeSlot_self`). -/
theorem setThenGetReadsBack : Obligations.SetThenGetReadsBack := by
  intro s c i v hinv hacc
  refine ⟨_, _, exec_of_admits (i := .set c i v) hacc,
    exec_of_admits (i := .get c i) (State.accessible_writeSlot hacc c i v), ?responses⟩
  case responses =>
    rw [← hinv.slotValue_writeSlot_self hacc v]
    exact List.append_assoc ..

/-- Settles O31: the slot GET reads reads the same after a write of another (`State.Inv.slotValue_writeSlot_of_ne`). -/
theorem setNeverChangesAnotherSlot : Obligations.SetNeverChangesAnotherSlot := by
  intro s c i j v hinv hacc haccj hne
  refine ⟨_, _, _, _, exec_of_admits (i := .set c i v) hacc, exec_of_admits (i := .get c j) haccj, rfl,
    exec_of_admits (i := .get c j) (State.accessible_writeSlot haccj c i v), ?sameResponse⟩
  case sameResponse =>
    rw [dataOf, dataOf, ← hinv.slotValue_writeSlot_of_ne hacc haccj hne v]
    rfl

end

section
/-! The whole-array operations: the one check that they share, what UNPACK writes, and the copy that CLONE makes
(spec/43_bulk.md R170, R172, R174; spec/60_exceptions.md R197). -/

namespace Sys2Proof.Machine

/-! ## The causes a command can report (R197) -/

/-- The code tells the cause (R190). -/
theorem Cause.code_inj {x y : Cause} (h : x.code = y.code) : x = y := by
  cases x <;> cases y <;> simp [Cause.code] at h ⊢

/-- Every check of an operation is for a fault of its row. -/
theorem cause_mem_mayFault (i : Instr) (s : State) : ∀ check ∈ checksOf i s, check.2.cause ∈ mayFault i := by
  cases i <;>
    simp [checksOf, mayFault, illegalCheck, illegalRaise, instanceCheck, indexCheck, capacityCheck, widthCheck,
      lengthCheck]

/-- A command that ends in a fault ends in one of its row. -/
theorem cause_mem_mayFault_of_exec {i : Instr} {s : State} {x : Cause} {i0 i1 : BitVec 32}
    (h : exec i s = .next (faulted s x i0 i1)) : x ∈ mayFault i := by
  obtain ⟨r, hr, hfaulted⟩ | ⟨-, hended⟩ := exec_cases h
  · obtain ⟨before, after, hchecks, -⟩ := firstRaise_eq_some hr
    have hmem : (true, r) ∈ checksOf i s := by simp [hchecks]
    have hcause : x = r.cause := Cause.code_inj (congrArg State.ecode hfaulted)
    exact hcause ▸ cause_mem_mayFault i s _ hmem
  · obtain ⟨hresponses, -⟩ := endedOk_effectOf i s (dataOf i s)
    rw [← hended] at hresponses
    have hresponse := (List.cons.inj (List.append_cancel_left hresponses)).1
    exact absurd (congrArg Response.status hresponse) x.code_ne_zero

/-- The four whole-array operations read one context, are legal when the contexts they name are, and have no fault of an
index in their rows (R170, R197). -/
theorem wholeArray_reads {i : Instr} {d c : CtxNum} (h : i ∈ [Instr.getAll c, .unpack c, .rawWords c, .clone d c])
    (cfg : Config) :
    i.source = some c ∧ (c.toNat < cfg.nctx → d.toNat < cfg.nctx → i.wf cfg = true) ∧
    .indexOutOfBounds ∉ mayFault i := by
  simp only [List.mem_cons, List.not_mem_nil, or_false] at h
  obtain rfl | rfl | rfl | rfl := h <;> simp +contextual [Instr.source, Instr.wf, legalCtx, mayFault]

/-! ## UNPACK and CLONE -/

/-- UNPACK's two phases give what GETALL's loop gives: the value of every slot, in index order (R172). -/
theorem State.unpackSlots_eq_slots {cfg : Config} {s : State} {c : CtxNum} (h : (s.ctx c).shape.sound cfg) :
    unpackSlots (s.ctx c).shape (s.readWords c (s.ctx c).shape.nwords.toNat) (s.ctx c).shape.size.toNat =
      (List.range (s.ctx c).shape.size.toNat).map fun k => BitVec.ofNat 32 (s.slot c k) := by
  obtain ⟨hhigh, hlow⟩ := h.size_bounds
  rw [unpackSlots_eq_emitSlots _ _ _ (by rwa [length_readWords]) (by rwa [length_readWords]), emitSlots_eq_slots h]

/-- The destination of a copy is valid when the source is, and has its registers (R174). -/
theorem State.copyContext_registers {s : State} (d : CtxNum) {c : CtxNum} (hvalid : (s.ctx c).valid = true) :
    ((s.copyContext d c).ctx d).valid = true ∧ ((s.copyContext d c).ctx d).shape = (s.ctx c).shape := by
  by_cases hdc : d = c
  · subst hdc
    rw [copyContext_self]
    exact ⟨hvalid, rfl⟩
  · rw [copyContext_of_ne s hdc, ctx_build_self]
    exact ⟨rfl, rfl⟩

/-- The destination of a copy has the words of the source (R174). -/
theorem State.readWord_copyContext (s : State) (d : CtxNum) {c : CtxNum} {w : Nat}
    (hw : w < (s.ctx c).shape.nwords.toNat) : (s.copyContext d c).readWord d w = s.readWord c w := by
  by_cases hdc : d = c
  · subst hdc
    rw [copyContext_self]
  · rw [copyContext_of_ne s hdc, readWord_build_self _ _ _ _ (by rwa [length_readWords]), getElem_readWords]

/-- A copy leaves the staging buffers and the callback stream (R174). -/
theorem State.sameBuffers_copyContext (s : State) (d c : CtxNum) : SameBuffers s (s.copyContext d c) := by
  by_cases hdc : d = c
  · rw [hdc, copyContext_self]
    exact ⟨fun _ => rfl, fun _ => rfl, rfl⟩
  · rw [copyContext_of_ne s hdc]
    exact ⟨fun _ => rfl, fun _ => rfl, rfl⟩

end Sys2Proof.Machine

open Sys2Proof Sys2Proof.Machine

/-- Settles O16: each of the four reads the context `c` and so checks it; the fault of an index is in none of their rows
of R197 (`cause_mem_mayFault_of_exec`). -/
theorem wholeArrayOperationsCheckContext : Obligations.WholeArrayOperationsCheckContext := by
  intro s d c i hi
  obtain ⟨hsource, hwf, hindex⟩ := wholeArray_reads hi s.cfg
  exact ⟨fun hc hd => exec_of_source_invalid (hwf hc hd) hsource,
    fun _ _ hexec => hindex (cause_mem_mayFault_of_exec hexec)⟩

/-- Settles O34: the effect is one run of VBUF cells, from 0 up, that holds the context's slots
(`State.unpackSlots_eq_slots`). -/
theorem unpackWritesEverySlot : Obligations.UnpackWritesEverySlot := by
  intro s c hinv huse hfit
  have hslots := State.unpackSlots_eq_slots (hinv.shape_sound huse.2)
  refine ⟨_, exec_of_admits (i := .unpack c) ⟨huse, hfit⟩, fun k hk => ?written, fun a ha => ?kept,
    endedOk_effectOf (.unpack c) s _, fun _ => rfl, fun _ => rfl, rfl⟩
  case written => simp [effectOf, hslots, State.readValue_writeValues, hk]
  case kept => simp [effectOf, hslots, State.readValue_writeValues, Nat.not_lt.2 ha]

/-- Settles O36: the effect is the copy, whose destination has the source's registers and words, whether or not the two
are one context. -/
theorem cloneCopiesTheContext : Obligations.CloneCopiesTheContext := by
  intro s d c _ huse hd
  have hcopy : effectOf (.clone d c) s = s.copyContext d c := rfl
  obtain ⟨hvalid, hshape⟩ := State.copyContext_registers d huse.2
  refine ⟨_, exec_of_admits (i := .clone d c) ⟨hd, huse⟩, hvalid, hshape, fun w hw => ?words,
    fun hself e => ?itself, fun e he => effectOf_ctx_of_ne (.clone d c) s he, endedOk_effectOf (.clone d c) s _,
    State.sameBuffers_copyContext s d c⟩
  case words => exact State.readWord_copyContext s d hw
  case itself => rw [State.respond_ctx, hcopy, hself, State.copyContext_self]

end

section
/-! Faults: what fault entry writes, which fault a command reports, and that it changes nothing else
(spec/60_exceptions.md R190 to R202). -/

namespace Sys2Proof.Machine

/-- Fault entry is the state that R200 and R201 give. -/
theorem State.raise_eq_faulted (s : State) (r : Raise) :
    s.raise r = faulted s r.cause (BitVec.ofNat 32 r.info0) (BitVec.ofNat 32 r.info1) := rfl

/-! ## What the first check to apply reports (R190, R202) -/

/-- What a list of checks reports: the cause and the information of the first that applies. -/
def firstReport (checks : List (Bool × Raise)) : Option (Cause × Nat × Nat) :=
  (firstRaise checks).map fun r => (r.cause, r.info0, r.info1)

@[simp] theorem firstReport_nil : firstReport [] = none := rfl

theorem firstReport_cons (p : Bool) (r : Raise) (rest : List (Bool × Raise)) :
    firstReport ((p, r) :: rest) = if p then some (r.cause, r.info0, r.info1) else firstReport rest := by
  cases p <;> rfl

section

variable (rest : List (Bool × Raise))

theorem firstReport_illegalCheck (i : Instr) (s : State) :
    firstReport (illegalCheck i s :: rest) =
      if i.wf s.cfg = false then
        some (.illegalCommand, (encode i).toNat % 2 ^ 32, (encode i).toNat / 2 ^ 32 % 2 ^ 32)
      else firstReport rest := by
  simp [illegalCheck, illegalRaise, firstReport_cons, BitVec.extractLsb'_toNat, Nat.shiftRight_eq_div_pow]

theorem firstReport_instanceCheck (c : CtxNum) (s : State) :
    firstReport (instanceCheck c s :: rest) =
      if (s.ctx c).valid = false then some (.noInstance, c.toNat, 0) else firstReport rest := by
  simp [instanceCheck, firstReport_cons]

theorem firstReport_indexCheck (c : CtxNum) (index : Value) (s : State) :
    firstReport (indexCheck c index s :: rest) =
      if (s.ctx c).shape.size.toNat ≤ index.toNat then
        some (.indexOutOfBounds, index.toNat, (s.ctx c).shape.size.toNat)
      else firstReport rest := by
  simp [indexCheck, firstReport_cons]

theorem firstReport_capacityCheck (amount capacity : Nat) :
    firstReport (capacityCheck amount capacity :: rest) =
      if capacity < amount then some (.capacityExceeded, amount, capacity) else firstReport rest := by
  simp [capacityCheck, firstReport_cons]

theorem firstReport_widthCheck (bits : BitVec 8) :
    firstReport (widthCheck bits :: rest) =
      if bits.toNat = 0 ∨ 33 ≤ bits.toNat then some (.invalidArgument, bits.toNat, 0) else firstReport rest := by
  simp [widthCheck, firstReport_cons, Nat.succ_le_iff]

theorem firstReport_lengthCheck (expected actual : Nat) :
    firstReport (lengthCheck expected actual :: rest) =
      if actual ≠ expected then some (.initializationError, expected, actual) else firstReport rest := by
  simp [lengthCheck, firstReport_cons]

end

theorem legalCtx_eq_false {cfg : Config} {c : CtxNum} : legalCtx cfg c = false ↔ cfg.nctx ≤ c.toNat := by
  simp [legalCtx]

/-- The chains of R202 are the operations' own checks, in their order. The registers of an illegal width, which the
capacity and length checks of a constructor would read, come after the width check. -/
theorem expectedFault_eq_firstReport (i : Instr) (s : State) : expectedFault i s = firstReport (checksOf i s) := by
  cases i with
  | new c bits size | fromValues c bits size | fromWords c bits size wlen =>
    by_cases hwidth : bits.toNat = 0 ∨ 33 ≤ bits.toNat
    · simp only [expectedFault, checksOf, firstReport_illegalCheck, Instr.wf, legalCtx_eq_false,
        firstReport_widthCheck, if_pos hwidth]
    · have hnwords := nwords_shapeOf (bits := bits) (by omega) (by omega) size
      simp only [expectedFault, checksOf, firstReport_illegalCheck, Instr.wf, legalCtx_eq_false,
        firstReport_widthCheck, firstReport_lengthCheck, firstReport_capacityCheck, hnwords, firstReport_nil]
  | widx c _ | get c _ | set c _ _ | getAndSet c _ _ | getAll c | unpack c | rawWords c =>
    simp only [expectedFault, checksOf, firstReport_illegalCheck, Instr.wf, legalCtx_eq_false,
      firstReport_instanceCheck, firstReport_indexCheck, firstReport_capacityCheck, firstReport_nil]
  | clone d c =>
    simp only [expectedFault, checksOf, firstReport_illegalCheck, Instr.wf, Bool.and_eq_false_iff, legalCtx_eq_false,
      firstReport_instanceCheck, firstReport_nil]

/-- What a command can do, in the terms of R202: it ends in the fault expected of it, or, with none expected, OK. -/
theorem exec_cases_expectedFault {i : Instr} {s t : State} (h : exec i s = .next t) :
    (∃ x i0 i1, expectedFault i s = some (x, i0, i1) ∧
      t = faulted s x (BitVec.ofNat 32 i0) (BitVec.ofNat 32 i1)) ∨
    (expectedFault i s = none ∧ EndedOk s t (dataOf i s)) := by
  rw [expectedFault_eq_firstReport, firstReport]
  obtain ⟨r, hr, rfl⟩ | ⟨hnone, rfl⟩ := exec_cases h
  · exact .inl ⟨r.cause, r.info0, r.info1, by rw [hr]; rfl, s.raise_eq_faulted r⟩
  · exact .inr ⟨by rw [hnone]; rfl, endedOk_effectOf i s _⟩

theorem exec_of_expectedFault {i : Instr} {s : State} {x : Cause} {i0 i1 : Nat}
    (h : expectedFault i s = some (x, i0, i1)) :
    exec i s = .next (faulted s x (BitVec.ofNat 32 i0) (BitVec.ofNat 32 i1)) := by
  obtain ⟨t, ht⟩ := exec_next i s
  obtain ⟨y, j0, j1, hsome, rfl⟩ | ⟨hnone, -⟩ := exec_cases_expectedFault ht
  · cases h.symm.trans hsome
    exact ht
  · cases h.symm.trans hnone

/-- The status of a response tells the fault (R190): a command that answers with the code of a cause was expected to
fault with it. -/
theorem expectedFault_of_status {i : Instr} {s t : State} (x : Cause) {d : BitVec 64} (hexec : exec i s = .next t)
    (hresponse : t.responses = s.responses ++ [{ status := x.code, data := d }]) :
    ∃ i0 i1, expectedFault i s = some (x, i0, i1) := by
  obtain ⟨y, i0, i1, hsome, rfl⟩ | ⟨-, hok, -⟩ := exec_cases_expectedFault hexec
  · have hcode : y.code = x.code :=
      congrArg Response.status (List.cons.inj (List.append_cancel_left hresponse)).1
    exact ⟨i0, i1, Cause.code_inj hcode ▸ hsome⟩
  · have hcode : okStatus = x.code :=
      congrArg Response.status (List.cons.inj (List.append_cancel_left (hok.symm.trans hresponse))).1
    exact absurd hcode.symm x.code_ne_zero

/-- A command that is expected to fault faults with a cause of its row (R197). -/
theorem mem_mayFault_of_expectedFault {i : Instr} {s : State} {x : Cause} {i0 i1 : Nat}
    (h : expectedFault i s = some (x, i0, i1)) : x ∈ mayFault i :=
  cause_mem_mayFault_of_exec (exec_of_expectedFault h)

/-! ## What a faulting command leaves (R200) -/

/-- The command ends with one response; if that is a fault, in the state it found plus fault entry, and if it is OK,
with the fault registers as before. -/
def Completes (s : State) (outcome : Host.Outcome State Fault Refusal) : Prop :=
  ∃ t r, outcome = .next t ∧ t.responses = s.responses ++ [r] ∧
    (r.status ≠ 0 → ∃ x i0 i1, t = faulted s x i0 i1) ∧ (r.status = 0 → SameFaultRegisters s t)

theorem completes_faulted (s : State) (x : Cause) (i0 i1 : BitVec 32) : Completes s (.next (faulted s x i0 i1)) :=
  ⟨_, _, rfl, rfl, fun _ => ⟨x, i0, i1, rfl⟩, fun hok => absurd hok x.code_ne_zero⟩

theorem completes_exec (i : Instr) (s : State) : Completes s (exec i s) := by
  obtain ⟨t, ht⟩ := exec_next i s
  rw [ht]
  obtain ⟨x, i0, i1, -, rfl⟩ | ⟨-, hresponse, hsame, -⟩ := exec_cases_expectedFault ht
  · exact completes_faulted s x _ _
  · exact ⟨t, _, rfl, hresponse, fun hne => absurd rfl hne, fun _ => hsame⟩

/-- A word that is no operation faults once taken from the inputs (R86 (a), R194). -/
theorem step_of_decode_error {s : State} {cw : CommandWord} {rest : List HostAction}
    (hin : s.inputs = .command cw :: rest) {e : DecodeError} (hdecode : decode cw = .error e) :
    step s = .next (faulted { s with inputs := rest } .illegalCommand
      (cw.extractLsb' 0 32) (cw.extractLsb' 32 32)) := by
  rw [step_illegal hin hdecode, State.raise_illegalRaise]

/-! ## A fault of each kind (R197) -/

/-- Two contexts of one word each, two VBUF cells and no WBUF cell. -/
def smallConfig : Config := { nctx := 2, wordsCap := 1, vbufLen := 2, wbufLen := 0 }

/-- A unit of that size, where context 0 holds three slots in its word and context 1 is not valid. -/
def smallUnit : State := (State.resetWith smallConfig 0).build 0 (shapeOf 5 3) [0]

theorem smallUnit_inv : smallUnit.Inv := by
  have hcfg : smallConfig.wf := by decide
  have hshape : (shapeOf 5 3).sound smallConfig := by decide
  exact (State.inv_resetWith smallConfig 0 hcfg).build (c := 0) (by decide) hshape rfl

/-- For each fault in the row of an operation, in the order of the row, the operation with operands that raise it in
`smallUnit`. Context 15 is no context of the unit, context 1 is invalid, the index 3 is SIZE, and every capacity is
exceeded by one. -/
def faultExamples : Instr → List Instr
  | .new _ _ _         => [.new 0 0 1, .new 15 5 1, .new 0 32 3]
  | .fromValues _ _ _  => [.fromValues 0 0 1, .fromValues 15 5 1, .fromValues 0 5 3]
  | .fromWords _ _ _ _ => [.fromWords 0 0 1 1, .fromWords 0 5 1 2, .fromWords 15 5 1 1, .fromWords 0 5 1 1]
  | .widx _ _          => [.widx 0 3, .widx 15 0, .widx 1 0]
  | .get _ _           => [.get 0 3, .get 15 0, .get 1 0]
  | .set _ _ _         => [.set 0 3 0, .set 15 0 0, .set 1 0 0]
  | .getAndSet _ _ _   => [.getAndSet 0 3 0, .getAndSet 15 0 0, .getAndSet 1 0 0]
  | .getAll _          => [.getAll 15, .getAll 1]
  | .unpack _          => [.unpack 15, .unpack 1, .unpack 0]
  | .rawWords _        => [.rawWords 15, .rawWords 1, .rawWords 0]
  | .clone _ _         => [.clone 0 15, .clone 0 1]

theorem mnemonic_of_mem_faultExamples {i j : Instr} (h : j ∈ faultExamples i) : j.mnemonic = i.mnemonic := by
  have hall : ∀ k ∈ faultExamples i, k.mnemonic = i.mnemonic := by
    cases i <;> simp [faultExamples, Instr.mnemonic]
  exact hall j h

theorem expectedFault_faultExamples (i : Instr) :
    (faultExamples i).map (fun j => (expectedFault j smallUnit).map Prod.fst) = (mayFault i).map some := by
  cases i <;> rfl

theorem exists_faultExample {i : Instr} {x : Cause} (h : x ∈ mayFault i) :
    ∃ j ∈ faultExamples i, ∃ i0 i1, expectedFault j smallUnit = some (x, i0, i1) := by
  have hmem := List.mem_map_of_mem (f := some) h
  rw [← expectedFault_faultExamples] at hmem
  obtain ⟨j, hj, hfault⟩ := List.mem_map.1 hmem
  obtain ⟨⟨_, i0, i1⟩, hsome, rfl⟩ := Option.map_eq_some_iff.1 hfault
  exact ⟨j, hj, i0, i1, hsome⟩

/-! ## The two faults of construction (R191, R192) -/

theorem expectedFault_of_bad_width {s : State} {c : CtxNum} (hc : c.toNat < s.cfg.nctx) {bits : BitVec 8}
    (hwidth : bits.toNat = 0 ∨ 33 ≤ bits.toNat) {size wlen : Value} {i : Instr}
    (hi : i ∈ [Instr.new c bits size, .fromValues c bits size, .fromWords c bits size wlen]) :
    expectedFault i s = some (.invalidArgument, bits.toNat, 0) := by
  simp only [List.mem_cons, List.not_mem_nil, or_false] at hi
  obtain rfl | rfl | rfl := hi <;> simp only [expectedFault, if_neg (Nat.not_le.2 hc), if_pos hwidth]

/-- Only the constructors have the fault of a width in their rows. -/
theorem constructor_of_invalidArgument_mem {i : Instr} (h : .invalidArgument ∈ mayFault i) :
    ∃ c bits size wlen, i ∈ [Instr.new c bits size, .fromValues c bits size, .fromWords c bits size wlen] := by
  cases i with
  | new c bits size | fromValues c bits size => exact ⟨c, bits, size, 0, by simp⟩
  | fromWords c bits size wlen => exact ⟨c, bits, size, wlen, by simp⟩
  | widx _ _ | get _ _ | set _ _ _ | getAndSet _ _ _ | getAll _ | unpack _ | rawWords _ | clone _ _ =>
    simp [mayFault] at h

theorem bad_width_of_expectedFault {s : State} {c : CtxNum} {bits : BitVec 8} {size wlen : Value} {i : Instr}
    (hi : i ∈ [Instr.new c bits size, .fromValues c bits size, .fromWords c bits size wlen]) {i0 i1 : Nat}
    (h : expectedFault i s = some (.invalidArgument, i0, i1)) : bits.toNat = 0 ∨ 33 ≤ bits.toNat := by
  by_contra hwidth
  simp only [List.mem_cons, List.not_mem_nil, or_false] at hi
  obtain rfl | rfl | rfl := hi <;> simp only [expectedFault, if_neg hwidth] at h <;> split_ifs at h <;> cases h

/-- Only FROMWORDS has the fault of a length in its row. -/
theorem fromWords_of_initializationError_mem {i : Instr} (h : .initializationError ∈ mayFault i) :
    ∃ c bits size wlen, i = .fromWords c bits size wlen := by
  cases i with
  | fromWords c bits size wlen => exact ⟨c, bits, size, wlen, rfl⟩
  | new _ _ _ | fromValues _ _ _ | widx _ _ | get _ _ | set _ _ _ | getAndSet _ _ _ | getAll _ | unpack _
  | rawWords _ | clone _ _ => simp [mayFault] at h

theorem expectedFault_of_wrong_length {s : State} {c : CtxNum} (hc : c.toNat < s.cfg.nctx) {bits : BitVec 8}
    (h1 : 1 ≤ bits.toNat) (h32 : bits.toNat ≤ 32) {size wlen : Value}
    (hlen : wlen.toNat ≠ ceilWords bits.toNat size.toNat) :
    expectedFault (.fromWords c bits size wlen) s =
      some (.initializationError, ceilWords bits.toNat size.toNat, wlen.toNat) := by
  have hwidth : ¬ (bits.toNat = 0 ∨ 33 ≤ bits.toNat) := by omega
  simp only [expectedFault, if_neg (Nat.not_le.2 hc), if_neg hwidth, if_pos hlen]

theorem wrong_length_of_expectedFault {s : State} {c : CtxNum} {bits : BitVec 8} {size wlen : Value} {i0 i1 : Nat}
    (h : expectedFault (.fromWords c bits size wlen) s = some (.initializationError, i0, i1)) :
    wlen.toNat ≠ ceilWords bits.toNat size.toNat := by
  intro hlen
  simp only [expectedFault, if_neg (not_not_intro hlen)] at h
  split_ifs at h <;> cases h

end Sys2Proof.Machine

open Sys2Proof Sys2Proof.Machine

/-- Settles O8: it is how `State.raise` is defined. -/
theorem faultEntryWritesFourRegisters : Obligations.FaultEntryWritesFourRegisters :=
  ⟨fun s x i0 i1 => s.raise_eq { cause := x, info0 := i0, info1 := i1 }, rfl, rfl, rfl, rfl, rfl, rfl⟩

/-- Settles O9: a command ends in the fault expected of it or has its effect, which leaves the fault registers
(`completes_exec`); a word that is no operation ends in fault entry. -/
theorem faultingCommandChangesOnlyFaultRegisters : Obligations.FaultingCommandChangesOnlyFaultRegisters := by
  refine ⟨completes_exec, fun s cw rest hin => ?_⟩
  cases hdecode : decode cw with
  | ok i => exact step_command hin hdecode ▸ completes_exec i { s with inputs := rest }
  | error e => exact step_of_decode_error hin hdecode ▸ completes_faulted { s with inputs := rest } _ _ _

/-- Settles O10: every check is for a fault of the row, and `faultExamples` has a command for each. -/
theorem operationsFaultAsTabled : Obligations.OperationsFaultAsTabled := by
  constructor
  · intro i s t hexec
    obtain ⟨x, i0, i1, hsome, rfl⟩ | ⟨-, hok, -⟩ := exec_cases_expectedFault hexec
    · exact .inr ⟨x, mem_mayFault_of_expectedFault hsome, _, _, rfl⟩
    · exact .inl ⟨_, hok⟩
  · intro i x hx
    obtain ⟨j, hj, i0, i1, hsome⟩ := exists_faultExample hx
    exact ⟨j, smallUnit, _, _, smallUnit_inv, mnemonic_of_mem_faultExamples hj, exec_of_expectedFault hsome⟩

/-- Settles O11: the chains of R202 are the checks the operations make (`expectedFault_eq_firstReport`). -/
theorem commandReportsTheFirstCause : Obligations.CommandReportsTheFirstCause := by
  refine ⟨fun i s => ⟨fun x i0 i1 => exec_of_expectedFault, fun hnone => ?ok⟩, fun _ _ _ _ hin hdecode =>
    step_of_decode_error hin hdecode⟩
  case ok =>
    obtain ⟨t, ht⟩ := exec_next i s
    obtain ⟨x, i0, i1, hsome, -⟩ | ⟨-, hok, -⟩ := exec_cases_expectedFault ht
    · cases hnone.symm.trans hsome
    · exact ⟨t, _, ht, hok⟩

/-- Settles O12: of the causes of a constructor an illegal width comes right after an illegal context; only constructors
have InvalidArgument in their rows, and their chains give it for a width alone. -/
theorem badWidthIsInvalidArgument : Obligations.BadWidthIsInvalidArgument := by
  constructor
  · intro s c bits size wlen hc hwidth i hi
    rw [exec_of_expectedFault (expectedFault_of_bad_width hc hwidth hi), BitVec.ofNat_toNat]
    rfl
  · intro i s t hexec hresponse
    obtain ⟨i0, i1, hsome⟩ := expectedFault_of_status .invalidArgument hexec hresponse
    obtain ⟨c, bits, size, wlen, hi⟩ := constructor_of_invalidArgument_mem (mem_mayFault_of_expectedFault hsome)
    exact ⟨c, bits, size, wlen, bad_width_of_expectedFault hi hsome, hi⟩

/-- Settles O13: the length is the first cause after an illegal context and an illegal width; only FROMWORDS has
InitializationError in its row, and its chain gives it for a length alone. -/
theorem wrongLengthIsInitializationError : Obligations.WrongLengthIsInitializationError := by
  constructor
  · intro s c bits size wlen hc h1 h32 hlen
    rw [exec_of_expectedFault (expectedFault_of_wrong_length hc h1 h32 hlen), BitVec.ofNat_toNat, BitVec.setWidth_eq]
  · intro i s t hexec hresponse
    obtain ⟨i0, i1, hsome⟩ := expectedFault_of_status .initializationError hexec hresponse
    obtain ⟨c, bits, size, wlen, rfl⟩ := fromWords_of_initializationError_mem (mem_mayFault_of_expectedFault hsome)
    exact ⟨c, bits, size, wlen, rfl, wrong_length_of_expectedFault hsome⟩

end

section
/-! Reset, and what only a reset clears: FAULT, VALID and the beats of CB (spec/70_reset_and_hazards.md R230, R231). -/

namespace Sys2Proof.Machine

/-- What a step that is no reset keeps: a set FAULT, every valid context, and the beats of CB (R230). -/
structure Retains (s t : State) : Prop where
  fault : s.fault = true → t.fault = true
  valid : ∀ c, (s.ctx c).valid = true → (t.ctx c).valid = true
  cb    : s.cb <+: t.cb

theorem Retains.refl (s : State) : Retains s s := ⟨id, fun _ => id, List.prefix_rfl⟩

/-- Fault entry sets FAULT and writes no context and no beat (R201). -/
theorem Retains.raise (s : State) (r : Raise) : Retains s (s.raise r) := ⟨fun _ => rfl, fun _ => id, List.prefix_rfl⟩

/-- A new instance is valid, and no other context changes (R20, R110). -/
theorem State.valid_build_of_valid {s : State} {d : CtxNum} (h : (s.ctx d).valid = true) (c : CtxNum) (sh : Shape)
    (words : List Word) : ((s.build c sh words).ctx d).valid = true := by
  by_cases hd : d = c
  · rw [hd, ctx_build_self]
  · rwa [ctx_build_of_ne s hd]

/-- No effect makes a valid context invalid: a construction and a copy make one valid, the others write no VALID. -/
theorem valid_effectOf_of_valid {s : State} {d : CtxNum} (h : (s.ctx d).valid = true) (i : Instr) :
    ((effectOf i s).ctx d).valid = true := by
  cases i with
  | new _ _ _ | fromValues _ _ _ | fromWords _ _ _ _ => exact State.valid_build_of_valid h _ _ _
  | clone e c =>
    by_cases hec : e = c
    · rwa [effectOf, hec, State.copyContext_self]
    · rw [effectOf, State.copyContext_of_ne s hec]
      exact State.valid_build_of_valid h _ _ _
  | set c index value | getAndSet c index value => exact (State.valid_writeSlot s c d index value).trans h
  | widx _ _ | get _ _ | getAll _ | unpack _ | rawWords _ => exact h

/-- Only GETALL writes CB, and it appends (R32, R37). -/
theorem cb_prefix_effectOf (i : Instr) (s : State) : s.cb <+: (effectOf i s).cb := by
  by_cases hgetAll : i.mnemonic = "GETALL"
  · cases i with
    | getAll c => exact List.prefix_append _ _
    | _ => simp [Instr.mnemonic] at hgetAll
  · obtain ⟨-, -, hcb⟩ := effectOf_buffers i s
    rw [hcb hgetAll]

theorem Retains.exec {i : Instr} {s t : State} (h : exec i s = .next t) : Retains s t := by
  obtain ⟨r, -, rfl⟩ | ⟨-, rfl⟩ := exec_cases h
  · exact .raise s r
  · obtain ⟨-, hfault, -⟩ := effectOf_frame i s
    exact ⟨hfault.trans, fun _ hvalid => valid_effectOf_of_valid hvalid i, cb_prefix_effectOf i s⟩

/-- What the host still has lined up is none of what a step retains. -/
theorem Retains.of_inputs {s t : State} {rest : List HostAction} (h : Retains { s with inputs := rest } t) :
    Retains s t := ⟨h.fault, h.valid, h.cb⟩

theorem Retains.step {s t : State} (h : step s = .next t) (hreset : s.inputs.head? ≠ some .reset) : Retains s t := by
  obtain ⟨-, rfl⟩ | ⟨cw, rest, i, -, -, hexec⟩ | ⟨cw, rest, e, -, -, rfl⟩ | ⟨a, v, rest, -, -, rfl⟩ |
    ⟨a, w, rest, -, -, rfl⟩ | ⟨rest, hin, -⟩ := step_cases h
  · exact .refl t
  · exact (Retains.exec hexec).of_inputs
  · exact (Retains.raise { s with inputs := rest } _).of_inputs
  · exact ⟨id, fun _ => id, List.prefix_rfl⟩
  · exact ⟨id, fun _ => id, List.prefix_rfl⟩
  · exact absurd (congrArg List.head? hin) hreset

end Sys2Proof.Machine

open Sys2Proof Sys2Proof.Machine

/-- Settles O48: the reset step is the state after reset with the host's own fields (`step_reset`), and every other step
retains what the state has (`Retains.step`). -/
theorem onlyResetClears : Obligations.OnlyResetClears := by
  refine ⟨fun s rest hin => ?reset, fun s t hstep hreset => ?other⟩
  case reset =>
    exact ⟨_, step_reset hin, fun c => congrArg Context.valid (State.resetWith_ctx s.cfg (s.resets + 1) c),
      rfl, rfl, rfl, rfl, rfl, rfl, rfl, rfl⟩
  case other =>
    obtain ⟨hfault, hvalid, hcb⟩ := Retains.step hstep hreset
    exact ⟨hfault, hvalid, hcb⟩

/-- Settles O7: it is how `step` reads an empty list of inputs. -/
theorem unitWaitsForACommand : Obligations.UnitWaitsForACommand := fun _ => step_nil

end
